-- ==== Sys2Proof/Word.lean ====
section
/-! DEFINITION. The word types of the block: unsigned values of fixed width (spec R6, R7, R16). -/

namespace Sys2Proof

/-- A memory byte or a general register (R5, R6). -/
abbrev Byte := BitVec 8

/-- A 16-bit value: `pc`, `I`, a stack entry, an instruction word (R7, R14, R26). -/
abbrev Word := BitVec 16

/-- A 12-bit address operand `nnn` (R18). -/
abbrev Addr := BitVec 12

/-- A 4-bit operand `n`, or a key number (R18, R37). -/
abbrev Nibble := BitVec 4

/-- A register index `x` or `y`: a 4-bit value, and every one names an existing register (R20). -/
abbrev RegIdx := Fin 16

/-- VF, register 15: an ordinary register that several instructions also write as a flag (R21). -/
abbrev VF : RegIdx := 15

end Sys2Proof
end

