-- ==== Sys2Proof/Config.lean ====
section
/-! DEFINITION. What an implementation fixes (spec R5 to R14), and the free values: the inputs the host
presents at a step for which the state holds no operation of the host (R36 to R38). -/

namespace Sys2Proof.Config

/-- `MEM_SIZE` (R5). -/
abbrev memSize : Nat := 4096

/-- `FB_WIDTH` (R9). -/
abbrev fbWidth : Nat := 64

/-- `FB_HEIGHT` (R9). -/
abbrev fbHeight : Nat := 32

/-- `STACK_DEPTH` (R10). -/
abbrev stackDepth : Nat := 16

/-- `FONT_SIZE` (R11): 16 glyphs of 5 bytes. -/
abbrev fontSize : Nat := 80

/-- `PROGRAM_BASE` (R12). -/
abbrev programBase : Nat := 0x200

/-- The largest program that fits: `MEM_SIZE - PROGRAM_BASE` bytes (R12). -/
abbrev maxProgram : Nat := memSize - programBase

/-- The parameters a build of the block is made with, which the spec leaves to the build: the FX1E
flag quirk (R13), the font's place with `FONT_BASE + 80 <= 0x200` (R11), and the font's bytes, `font[d]` the
five rows of glyph `d` from top to bottom (R31). State carries them so that a statement about every state is a
statement about every build; no operation changes them. -/
structure Build where
  quirkFx1eVf : Bool
  fontBase    : Fin (programBase - fontSize + 1)
  font        : Vector (Vector Byte 5) 16
  deriving DecidableEq, Repr

/-- The glyphs 0 to F of spec R31. PRESUMED by the spec itself ("from general knowledge"), log 2; unsafe for a
claim about glyph pixels that names this table. -/
def standardFont : Vector (Vector Byte 5) 16 :=
  #v[#v[0xF0, 0x90, 0x90, 0x90, 0xF0],
     #v[0x20, 0x60, 0x20, 0x20, 0x70],
     #v[0xF0, 0x10, 0xF0, 0x80, 0xF0],
     #v[0xF0, 0x10, 0xF0, 0x10, 0xF0],
     #v[0x90, 0x90, 0xF0, 0x10, 0x10],
     #v[0xF0, 0x80, 0xF0, 0x10, 0xF0],
     #v[0xF0, 0x80, 0xF0, 0x90, 0xF0],
     #v[0xF0, 0x10, 0x20, 0x40, 0x40],
     #v[0xF0, 0x90, 0xF0, 0x90, 0xF0],
     #v[0xF0, 0x90, 0xF0, 0x10, 0xF0],
     #v[0xF0, 0x90, 0xF0, 0x90, 0x90],
     #v[0xE0, 0x90, 0xE0, 0x90, 0xE0],
     #v[0xF0, 0x80, 0x80, 0x80, 0xF0],
     #v[0xE0, 0x90, 0x90, 0x90, 0xE0],
     #v[0xF0, 0x80, 0xF0, 0x80, 0xF0],
     #v[0xF0, 0x80, 0xF0, 0x80, 0x80]]

/-- The build of `State.reset`: the quirk off (R13), the font of R31, and `FONT_BASE = 0x050`, the value of the
spec's test vectors (R11 leaves it OPEN). PRESUMED, log 1; unsafe for a claim about `State.reset` alone that names the
font's place. -/
def Build.hardware : Build where
  quirkFx1eVf := false
  fontBase := 0x050
  font := standardFont

/-- Free value: `keys[15:0]` as the host presents them at the `n`-th step whose inputs nothing in the state gives
(R36). Any value is possible. Log 6; safe. -/
opaque freeKeys : Nat → BitVec 16

/-- Free value: `key_event` at that step (R37). Log 6; safe. -/
opaque freeKeyEvent : Nat → Option Nibble

/-- Free value: `rand` at that step (R38). Log 6; safe. -/
opaque freeRand : Nat → Byte

end Sys2Proof.Config
end

