-- ==== Sys2Proof/Syntax.lean ====
section
/-! DEFINITION. The instructions: one constructor per row of spec/opcode_table.json, in the table's order, with
every operand field of the row's format, the ignored ones too (spec R63, R64), so that no bit of a word is lost. -/

namespace Sys2Proof

/-- The 34 instructions (R2, R66). Docstrings give the table's mnemonic and the assembler spelling of R75. -/
inductive Instr where
  /-- 00E0, `CLS` (R105). -/
  | cls
  /-- 00EE, `RET` (R90). -/
  | ret
  /-- 1NNN, `JP addr` (R91). -/
  | jp (nnn : Addr)
  /-- 2NNN, `CALL addr` (R92). -/
  | call (nnn : Addr)
  /-- 3XNN, `SE Vx, byte` (R93). -/
  | seImm (x : RegIdx) (nn : Byte)
  /-- 4XNN, `SNE Vx, byte` (R94). -/
  | sneImm (x : RegIdx) (nn : Byte)
  /-- 5XYN, `SE Vx, Vy` (R95); `n` is ignored. -/
  | seReg (x y : RegIdx) (n : Nibble)
  /-- 6XNN, `LD Vx, byte` (R77). -/
  | ldImm (x : RegIdx) (nn : Byte)
  /-- 7XNN, `ADD Vx, byte` (R78). -/
  | addImm (x : RegIdx) (nn : Byte)
  /-- 8XY0, `LD Vx, Vy` (R79). -/
  | ldReg (x y : RegIdx)
  /-- 8XY1, `OR Vx, Vy` (R80). -/
  | orReg (x y : RegIdx)
  /-- 8XY2, `AND Vx, Vy` (R81). -/
  | andReg (x y : RegIdx)
  /-- 8XY3, `XOR Vx, Vy` (R82). -/
  | xorReg (x y : RegIdx)
  /-- 8XY4, `ADD Vx, Vy` (R83). -/
  | addReg (x y : RegIdx)
  /-- 8XY5, `SUB Vx, Vy` (R84). -/
  | subReg (x y : RegIdx)
  /-- 8XY6, `SHR Vx` (R85); `y` is ignored. -/
  | shr (x y : RegIdx)
  /-- 8XY7, `SUBN Vx, Vy` (R86). -/
  | subnReg (x y : RegIdx)
  /-- 8XYE, `SHL Vx` (R87); `y` is ignored. -/
  | shl (x y : RegIdx)
  /-- 9XYN, `SNE Vx, Vy` (R96); `n` is ignored. -/
  | sneReg (x y : RegIdx) (n : Nibble)
  /-- ANNN, `LD I, addr` (R99). -/
  | ldI (nnn : Addr)
  /-- BXNN, `JP Vx, addr` (R97): `x` is the top nibble of `nnn` (R63), which `WellFormed` checks. -/
  | jpOff (x : RegIdx) (nnn : Addr)
  /-- CXNN, `RND Vx, byte` (R88). -/
  | rnd (x : RegIdx) (nn : Byte)
  /-- DXYN, `DRW Vx, Vy, nibble` (R106). -/
  | drw (x y : RegIdx) (n : Nibble)
  /-- EX9E, `SKP Vx` (R111). -/
  | skp (x : RegIdx)
  /-- EXA1, `SKNP Vx` (R112). -/
  | sknp (x : RegIdx)
  /-- FX07, `LD Vx, DT` (R113). -/
  | ldVDt (x : RegIdx)
  /-- FX0A, `LD Vx, K` (R116). -/
  | ldVK (x : RegIdx)
  /-- FX15, `LD DT, Vx` (R114). -/
  | ldDtV (x : RegIdx)
  /-- FX18, `LD ST, Vx` (R115). -/
  | ldStV (x : RegIdx)
  /-- FX1E, `ADD I, Vx` (R100). -/
  | addI (x : RegIdx)
  /-- FX29, `LD F, Vx` (R101). -/
  | ldF (x : RegIdx)
  /-- FX33, `LD B, Vx` (R102). -/
  | ldB (x : RegIdx)
  /-- FX55, `LD [I], Vx` (R103). -/
  | stRegs (x : RegIdx)
  /-- FX65, `LD Vx, [I]` (R104). -/
  | ldRegs (x : RegIdx)
  deriving DecidableEq, Repr

end Sys2Proof
end

