-- ==== Sys2Proof/Machine/State.lean ====
section
/-! DEFINITION. The state of the block: everything spec R19 names, the interface of R36 to R40 as plain data, and the
parameters of the build. The two types of reasons a step can stop; the state after reset (R41). -/

namespace Sys2Proof.Machine

open Sys2Proof

/-- The content of `fault_cause` (R32, R118). -/
inductive FaultCause where
  /-- Not halted. -/
  | none
  /-- A fetch at `pc` with `pc + 1 > 0xFFF`. -/
  | fetchOutOfBounds
  /-- DXYN, FX33, FX55 or FX65 with an address above 0xFFF. -/
  | memoryOutOfBounds
  /-- 00EE with `SP = 0`. -/
  | stackUnderflow
  /-- 2NNN with `SP = STACK_DEPTH`. -/
  | stackOverflow
  /-- EX9E or EXA1 with `V[x] > 0xF`. -/
  | keyOutOfRange
  deriving DecidableEq, Repr

/-- The three inputs as sampled for one step (R36 to R38): `keys[15:0]`, `key_event`, `rand`. -/
structure Inputs where
  keys     : BitVec 16
  keyEvent : Option Nibble
  rand     : Byte
  deriving DecidableEq, Repr

/-- One of the five operations the host issues (R40); a `Step` comes with the inputs presented for it (R144). -/
inductive HostOp where
  | reset
  | load (bytes : List Byte)
  | step (inp : Inputs)
  | tick
  | read
  deriving DecidableEq, Repr

/-- The output event `decode_error(ipc, op)` (R39, R72). -/
structure DecodeErrorEvent where
  ipc : Word
  op  : Word
  deriving DecidableEq, Repr

/-- The framebuffer: `FB_HEIGHT` rows, bit `c` of row `r` is the pixel `FB[c][r]` (R30; log 16). -/
abbrev FrameBuffer := Vector (BitVec Config.fbWidth) Config.fbHeight

/-- Memory: the bytes that differ from what an unlisted address reads as, by rising address (R42; log 11). -/
abbrev Memory := List Host.Cell

/-- The machine's state. The fields from `mem` to `awaitingKey` are R19's, under its names; the rest is the interface
(`inp`, `diag`, `host`, `loadOpen`), the build's parameters (`cfg`), and the model's own counter (`sampleNo`). -/
structure State where
  /-- Parameters of the build (R11, R13, R31); no operation changes them (log 4). -/
  cfg : Config.Build
  /-- `mem[0..4095]`. -/
  mem : Memory
  /-- The program counter (R23). -/
  pc : Word
  /-- The index register (R25). -/
  I : Word
  /-- V0 to VF (R20, R21). -/
  V : Vector Byte 16
  /-- `stack[0..15]`, the stale entries at and above `SP` too (R26, R28). -/
  stack : Vector Word Config.stackDepth
  /-- The stack depth, 0 to `STACK_DEPTH` (R26; log 16). -/
  SP : Fin (Config.stackDepth + 1)
  /-- The delay timer (R29). -/
  DT : Byte
  /-- The sound timer (R29). -/
  ST : Byte
  /-- The framebuffer (R30). -/
  FB : FrameBuffer
  /-- `fault_cause`: the block is halted exactly when it is not `none` (R32). -/
  faultCause : FaultCause
  /-- `fault_pc` (R33). -/
  faultPc : Word
  /-- `fault_op` (R33). -/
  faultOp : Word
  /-- `awaiting_key` (R34). -/
  awaitingKey : Bool
  /-- The inputs sampled for the current step (R36 to R38; log 6). -/
  inp : Inputs
  /-- The diagnostic output: every `decode_error` emitted, newest first (R39; log 9). -/
  diag : List DecodeErrorEvent
  /-- The operations the host issues next, oldest first (R40). When it is empty the host issues a `Step` with free
  inputs (log 5). -/
  host : List HostOp
  /-- `Load` is still admitted: no `Step` since the last `Reset` (R135; log 8). -/
  loadOpen : Bool
  /-- The model's own counter of the free inputs used so far (log 6). -/
  sampleNo : Nat
  deriving DecidableEq, Repr

/-- Reasons for `Outcome.fault`: none. Every fault of the spec halts the block in a state it describes (R119, R120), so it
is a next state; no operation of the block ends a run in a fault (log 12; safe). -/
inductive Fault
  deriving DecidableEq, Repr

/-- Reasons for `Outcome.refused`. -/
inductive Refusal where
  /-- An arm of `exec` whose instruction has no meaning yet; raised by no arm of this model. Safe. -/
  | notModelled (mnemonic : String)
  /-- The host's `Load` of more than 3584 bytes: "does not fit and is refused", and the block is not started (R135).
  Raised by the host operation `load`, never by an instruction. Safe. -/
  | programTooLarge
  /-- The host's `Load` after a `Step`: "admitted only after a `Reset` and before the first `Step`" (R135); such a
  write "has no move in the model" (R144). Raised by the host operation `load`, never by an instruction. Safe. -/
  | loadNotAdmitted
  deriving DecidableEq, Repr

/-- The state after reset of a block built with `b` (R41, R133): nothing is listed in memory, whose unlisted addresses
read as their reset contents. -/
def State.resetOf (b : Config.Build) : State where
  cfg := b
  mem := []
  pc := 0x200
  I := 0
  V := Vector.replicate 16 0
  stack := Vector.replicate Config.stackDepth 0
  SP := 0
  DT := 0
  ST := 0
  FB := Vector.replicate Config.fbHeight 0
  faultCause := .none
  faultPc := 0
  faultOp := 0
  awaitingKey := false
  inp := { keys := 0, keyEvent := Option.none, rand := 0 }
  diag := []
  host := []
  loadOpen := true
  sampleNo := 0

/-- The machine right after reset, built as this hardware is (log 1, log 2, log 3). -/
def State.reset : State := State.resetOf Config.Build.hardware

end Sys2Proof.Machine
end

