-- ==== Sys2Proof/Machine/Flags.lean ====
section
/-! DEFINITION. Every flag the spec writes to VF (R21, R76), as the byte it writes. -/

namespace Sys2Proof.Machine

open Sys2Proof

/-- A flag as a byte: 1 or 0. -/
def flagByte (c : Bool) : Byte := if c then 1 else 0

/-- 8XY4: 1 iff `a + b > 255` (R83). -/
def carryFlag (a b : Byte) : Byte := flagByte (decide (a.toNat + b.toNat > 255))

/-- 8XY5, 8XY7: NOT borrow of `a - b`, 1 iff `a >= b` (R84, R86). -/
def notBorrowFlag (a b : Byte) : Byte := flagByte (decide (a.toNat ≥ b.toNat))

/-- 8XY6: the bit shifted out to the right, `a & 1` (R85). -/
def shiftRightFlag (a : Byte) : Byte := a &&& 1

/-- 8XYE: the bit shifted out of bit 7, `(a & 0x80) >> 7` (R87). -/
def shiftLeftFlag (a : Byte) : Byte := (a &&& 0x80) >>> 7

/-- FX1E with the quirk: 1 iff the unbounded sum passes 0xFFF (R100). -/
def indexOverflowFlag (i : Word) (a : Byte) : Byte := flagByte (decide (i.toNat + a.toNat > 0xFFF))

/-- DXYN: 1 iff some pixel was turned off (R109). -/
def collisionFlag (hit : Bool) : Byte := flagByte hit

end Sys2Proof.Machine
end

