-- ==== Sys2Proof/WellFormed.lean ====
section
/-! DEFINITION. Which instruction terms an instruction word can stand for. The operand types already bound every field;
the one check left is BXNN's, whose two fields overlap (spec R63, R75). -/

namespace Sys2Proof

/-- The register that the top nibble of a 12-bit address names: `x = nnn[11:8]` (R63, R97). -/
def addrTopReg (nnn : Addr) : RegIdx := (nnn.extractLsb' 8 4).toFin

/-- `JP Vx, addr` "is only spelled when `x` equals `addr[11:8]`" (R75); every other term is well formed. -/
def WellFormed : Instr → Bool
  | .jpOff x nnn => x == addrTopReg nnn
  | .cls | .ret | .jp _ | .call _ | .seImm _ _ | .sneImm _ _ | .seReg _ _ _ | .ldImm _ _ | .addImm _ _
  | .ldReg _ _ | .orReg _ _ | .andReg _ _ | .xorReg _ _ | .addReg _ _ | .subReg _ _ | .shr _ _ | .subnReg _ _
  | .shl _ _ | .sneReg _ _ _ | .ldI _ | .rnd _ _ | .drw _ _ _ | .skp _ | .sknp _ | .ldVDt _ | .ldVK _
  | .ldDtV _ | .ldStV _ | .addI _ | .ldF _ | .ldB _ | .stRegs _ | .ldRegs _ => true

end Sys2Proof
end

