-- ==== Sys2Proof/Decode.lean ====
section
/-! DEFINITION. The decoder (spec R60, R66 to R72): two-level dispatch on the family, then on the sub-selector; and, after
it, the encoder, written from the formats of R63. -/

namespace Sys2Proof

/-! Fields of an instruction word (R18, R64): views of the same 16 bits, which may overlap. -/

/-- `op[15:12]`. -/
def opFamily (op : Word) : Nibble := op.extractLsb' 12 4
/-- `x = op[11:8]`. -/
def opX (op : Word) : RegIdx := (op.extractLsb' 8 4).toFin
/-- `y = op[7:4]`. -/
def opY (op : Word) : RegIdx := (op.extractLsb' 4 4).toFin
/-- `n = op[3:0]`. -/
def opN (op : Word) : Nibble := op.extractLsb' 0 4
/-- `nn = op[7:0]`. -/
def opNN (op : Word) : Byte := op.extractLsb' 0 8
/-- `nnn = op[11:0]`. -/
def opNNN (op : Word) : Addr := op.extractLsb' 0 12

/-- The first byte fetched, at the lower address, is `op[15:8]` (R46). -/
def wordOfBytes (hi lo : Byte) : Word := hi ++ lo
/-- `op[15:8]`, the byte at the lower address (R46). -/
def opHighByte (op : Word) : Byte := op.extractLsb' 8 8
/-- `op[7:0]`, the byte at the higher address (R46). -/
def opLowByte (op : Word) : Byte := op.extractLsb' 0 8

/-- Family 0x0: the whole operand is the selector (R67). -/
def decodeFamily0 (op : Word) : Option Instr :=
  if opNNN op = 0x0E0#12 then some .cls
  else if opNNN op = 0x0EE#12 then some .ret
  else none

/-- Family 0x8: the low nibble is the sub-selector (R68). -/
def decodeFamily8 (op : Word) : Option Instr :=
  match (opN op).toNat with
  | 0x0 => some (.ldReg (opX op) (opY op))
  | 0x1 => some (.orReg (opX op) (opY op))
  | 0x2 => some (.andReg (opX op) (opY op))
  | 0x3 => some (.xorReg (opX op) (opY op))
  | 0x4 => some (.addReg (opX op) (opY op))
  | 0x5 => some (.subReg (opX op) (opY op))
  | 0x6 => some (.shr (opX op) (opY op))
  | 0x7 => some (.subnReg (opX op) (opY op))
  | 0xE => some (.shl (opX op) (opY op))
  | _ => none

/-- Family 0xE: the low byte is the sub-selector (R69). -/
def decodeFamilyE (op : Word) : Option Instr :=
  if opNN op = 0x9E#8 then some (.skp (opX op))
  else if opNN op = 0xA1#8 then some (.sknp (opX op))
  else none

/-- Family 0xF: the low byte is the sub-selector (R70). -/
def decodeFamilyF (op : Word) : Option Instr :=
  if opNN op = 0x07#8 then some (.ldVDt (opX op))
  else if opNN op = 0x0A#8 then some (.ldVK (opX op))
  else if opNN op = 0x15#8 then some (.ldDtV (opX op))
  else if opNN op = 0x18#8 then some (.ldStV (opX op))
  else if opNN op = 0x1E#8 then some (.addI (opX op))
  else if opNN op = 0x29#8 then some (.ldF (opX op))
  else if opNN op = 0x33#8 then some (.ldB (opX op))
  else if opNN op = 0x55#8 then some (.stRegs (opX op))
  else if opNN op = 0x65#8 then some (.ldRegs (opX op))
  else none

/-- The decoder: reads nothing but the word (R60). `none` is a decode error (R72), not a fault. -/
def decode (op : Word) : Option Instr :=
  match (opFamily op).toNat with
  | 0x0 => decodeFamily0 op
  | 0x1 => some (.jp (opNNN op))
  | 0x2 => some (.call (opNNN op))
  | 0x3 => some (.seImm (opX op) (opNN op))
  | 0x4 => some (.sneImm (opX op) (opNN op))
  | 0x5 => some (.seReg (opX op) (opY op) (opN op))
  | 0x6 => some (.ldImm (opX op) (opNN op))
  | 0x7 => some (.addImm (opX op) (opNN op))
  | 0x8 => decodeFamily8 op
  | 0x9 => some (.sneReg (opX op) (opY op) (opN op))
  | 0xA => some (.ldI (opNNN op))
  | 0xB => some (.jpOff (opX op) (opNNN op))
  | 0xC => some (.rnd (opX op) (opNN op))
  | 0xD => some (.drw (opX op) (opY op) (opN op))
  | 0xE => decodeFamilyE op
  | _ => decodeFamilyF op

/-- Why a byte sequence gives no instruction. -/
inductive DecodeReject where
  /-- Fewer than the two bytes every instruction has (R74). -/
  | truncated
  /-- The word is none of the 34 instructions: the decode error of R72, which a step reports and passes over. -/
  | unrecognised (op : Word)
  deriving DecidableEq, Repr

/-- The decoder on bytes, lowest address first: total, it always consumes two bytes (R74), and rejects by name. -/
def decodeBytes : List Byte → Except DecodeReject (Instr × List Byte)
  | hi :: lo :: rest =>
    match decode (wordOfBytes hi lo) with
    | some i => .ok (i, rest)
    | none => .error (.unrecognised (wordOfBytes hi lo))
  | [_] | [] => .error .truncated

/-- The word numbered as spec/opcode_table.json numbers its bits: an instruction is one 16-bit word. -/
def tableWord (nbits w : Nat) : Word := BitVec.ofNat 16 (w % 2 ^ nbits)

/-- What the decoder reads from the instruction whose bits are `w`: laid out big-endian (R46), then decoded. -/
def decodeTableWord (nbits w : Nat) : Option Instr :=
  match decodeBytes [opHighByte (tableWord nbits w), opLowByte (tableWord nbits w)] with
  | .ok (i, _) => some i
  | .error _ => none

/-! The encoder, from the formats of R63. -/

/-- A register index as its 4-bit field. -/
def regField (x : RegIdx) : Nibble := BitVec.ofFin x

/-- Format `NNN` (and `FIXED`, `XNNN`). -/
def encNNN (family : Nibble) (nnn : Addr) : Word := family ++ nnn
/-- Format `XNN` (and `XS`, whose `nn` is the sub-selector). -/
def encXNN (family : Nibble) (x : RegIdx) (nn : Byte) : Word := family ++ (regField x ++ nn)
/-- Format `XYN` (and `XYS`, whose `n` is the sub-selector). -/
def encXYN (family : Nibble) (x y : RegIdx) (n : Nibble) : Word := family ++ (regField x ++ (regField y ++ n))

/-- The word of an instruction. BXNN's register is in its address (R63), so `x` has no field of its own. -/
def encode : Instr → Word
  | .cls => encNNN 0x0 0x0E0
  | .ret => encNNN 0x0 0x0EE
  | .jp nnn => encNNN 0x1 nnn
  | .call nnn => encNNN 0x2 nnn
  | .seImm x nn => encXNN 0x3 x nn
  | .sneImm x nn => encXNN 0x4 x nn
  | .seReg x y n => encXYN 0x5 x y n
  | .ldImm x nn => encXNN 0x6 x nn
  | .addImm x nn => encXNN 0x7 x nn
  | .ldReg x y => encXYN 0x8 x y 0x0
  | .orReg x y => encXYN 0x8 x y 0x1
  | .andReg x y => encXYN 0x8 x y 0x2
  | .xorReg x y => encXYN 0x8 x y 0x3
  | .addReg x y => encXYN 0x8 x y 0x4
  | .subReg x y => encXYN 0x8 x y 0x5
  | .shr x y => encXYN 0x8 x y 0x6
  | .subnReg x y => encXYN 0x8 x y 0x7
  | .shl x y => encXYN 0x8 x y 0xE
  | .sneReg x y n => encXYN 0x9 x y n
  | .ldI nnn => encNNN 0xA nnn
  | .jpOff _ nnn => encNNN 0xB nnn
  | .rnd x nn => encXNN 0xC x nn
  | .drw x y n => encXYN 0xD x y n
  | .skp x => encXNN 0xE x 0x9E
  | .sknp x => encXNN 0xE x 0xA1
  | .ldVDt x => encXNN 0xF x 0x07
  | .ldVK x => encXNN 0xF x 0x0A
  | .ldDtV x => encXNN 0xF x 0x15
  | .ldStV x => encXNN 0xF x 0x18
  | .addI x => encXNN 0xF x 0x1E
  | .ldF x => encXNN 0xF x 0x29
  | .ldB x => encXNN 0xF x 0x33
  | .stRegs x => encXNN 0xF x 0x55
  | .ldRegs x => encXNN 0xF x 0x65

/-- The mask and the match of an instruction's row in spec/opcode_table.json: the row's words are those with
`word & mask = match`. -/
def tableRow : Instr → Word × Word
  | .cls => (0xFFFF, 0x00E0)
  | .ret => (0xFFFF, 0x00EE)
  | .jp _ => (0xF000, 0x1000)
  | .call _ => (0xF000, 0x2000)
  | .seImm _ _ => (0xF000, 0x3000)
  | .sneImm _ _ => (0xF000, 0x4000)
  | .seReg _ _ _ => (0xF000, 0x5000)
  | .ldImm _ _ => (0xF000, 0x6000)
  | .addImm _ _ => (0xF000, 0x7000)
  | .ldReg _ _ => (0xF00F, 0x8000)
  | .orReg _ _ => (0xF00F, 0x8001)
  | .andReg _ _ => (0xF00F, 0x8002)
  | .xorReg _ _ => (0xF00F, 0x8003)
  | .addReg _ _ => (0xF00F, 0x8004)
  | .subReg _ _ => (0xF00F, 0x8005)
  | .shr _ _ => (0xF00F, 0x8006)
  | .subnReg _ _ => (0xF00F, 0x8007)
  | .shl _ _ => (0xF00F, 0x800E)
  | .sneReg _ _ _ => (0xF000, 0x9000)
  | .ldI _ => (0xF000, 0xA000)
  | .jpOff _ _ => (0xF000, 0xB000)
  | .rnd _ _ => (0xF000, 0xC000)
  | .drw _ _ _ => (0xF000, 0xD000)
  | .skp _ => (0xF0FF, 0xE09E)
  | .sknp _ => (0xF0FF, 0xE0A1)
  | .ldVDt _ => (0xF0FF, 0xF007)
  | .ldVK _ => (0xF0FF, 0xF00A)
  | .ldDtV _ => (0xF0FF, 0xF015)
  | .ldStV _ => (0xF0FF, 0xF018)
  | .addI _ => (0xF0FF, 0xF01E)
  | .ldF _ => (0xF0FF, 0xF029)
  | .ldB _ => (0xF0FF, 0xF033)
  | .stRegs _ => (0xF0FF, 0xF055)
  | .ldRegs _ => (0xF0FF, 0xF065)

end Sys2Proof
end

