-- ==== Sys2Proof/Machine/Ops.lean ====
section
/-! DEFINITION. The named operations over memory, registers, the call stack and the framebuffer; the advance of `pc`;
taking a fault (spec R119), with its one way back, `Reset`, beside it (R133). Each is a record update of the fields it names
and of no other. -/

namespace Sys2Proof.Machine

open Sys2Proof

/-! ### Memory (R42 to R50) -/

/-- Byte `k` of the font table: row `k mod 5` of glyph `k / 5` (R31). -/
def fontByte (b : Config.Build) (k : Nat) : Byte :=
  if h : k < 80 then b.font[k / 5][k % 5] else 0

/-- What an address that memory does not list reads as: its contents after reset, the font table at `FONT_BASE` and 0
elsewhere (R41, R51). -/
def unlisted (b : Config.Build) (a : Nat) : Byte :=
  if b.fontBase.val ≤ a ∧ a < b.fontBase.val + Config.fontSize then fontByte b (a - b.fontBase.val) else 0

/-- `MemRead(a, 1)` (R43). -/
def Memory.read (b : Config.Build) : Memory → Nat → Byte
  | [], a => unlisted b a
  | c :: m, a => if c.1 = a then c.2 else Memory.read b m a

/-- Memory without an entry for `a`. -/
def Memory.erase (m : Memory) (a : Nat) : Memory := m.filter (fun c => c.1 != a)

/-- Puts a cell before the first listed cell of a higher address. -/
def Memory.insert (c : Host.Cell) : Memory → Memory
  | [] => [c]
  | d :: m => if c.1 < d.1 then c :: d :: m else d :: Memory.insert c m

/-- `MemWrite(a, 1, v)` (R44), in the canonical form: the value an unlisted address reads as is not listed. Called only with
`a <= 0xFFF`; above that there is no byte to write (log 17). -/
def Memory.write (b : Config.Build) (m : Memory) (a : Nat) (v : Byte) : Memory :=
  if a < Config.memSize then
    if v = unlisted b a then m.erase a else (m.erase a).insert (a, v)
  else m

/-- Bytes written one at a time at consecutive ascending addresses (R48). -/
def Memory.writeList (b : Config.Build) : Memory → Nat → List Byte → Memory
  | m, _, [] => m
  | m, a, v :: vs => Memory.writeList b (m.write b a v) (a + 1) vs

/-- The canonical form: addresses strictly rising, inside the space, and no entry that an unlisted address would read
as. -/
abbrev Memory.wf (b : Config.Build) (m : Memory) : Prop :=
  m.Pairwise (fun c d => c.1 < d.1) ∧ ∀ c ∈ m, c.1 < Config.memSize ∧ c.2 ≠ unlisted b c.1

/-- The byte at address `a` (R43). -/
def State.readByte (s : State) (a : Nat) : Byte := s.mem.read s.cfg a

/-- The bytes `vs` written from address `a` upward (R44, R48). -/
def State.writeBytes (s : State) (a : Nat) (vs : List Byte) : State :=
  { s with mem := s.mem.writeList s.cfg a vs }

/-! ### Registers and timers -/

/-- Reads `V[x]` (R20). -/
def State.getV (s : State) (x : RegIdx) : Byte := s.V[x]

/-- `V[x] <- v` (R20); VF is written like any register (R21). -/
def State.setV (s : State) (x : RegIdx) (v : Byte) : State := { s with V := s.V.set x v }

/-- `V[0..k-1] <- mem[base..base+k-1]`, one register at a time, V0 first (R104). -/
def loadRegs (b : Config.Build) (m : Memory) (base : Nat) : Nat → Vector Byte 16 → Vector Byte 16
  | 0, V => V
  | k + 1, V =>
    let V' := loadRegs b m base k V
    if h : k < 16 then V'.set k (m.read b (base + k)) else V'

/-- The registers V0 to Vx loaded from `base` upward (R104). -/
def State.loadV (s : State) (base : Nat) (x : RegIdx) : State :=
  { s with V := loadRegs s.cfg s.mem base (x.val + 1) s.V }

/-- `I <- v` (R25). -/
def State.setI (s : State) (v : Word) : State := { s with I := v }

/-- `DT <- v` (R29). -/
def State.setDT (s : State) (v : Byte) : State := { s with DT := v }

/-- `ST <- v` (R29). -/
def State.setST (s : State) (v : Byte) : State := { s with ST := v }

/-! ### Program counter -/

/-- The post-fetch advance, `pc <- (pc + 2) mod 65536` (R61), with the clearing of `awaiting_key` that R62 gives every
step but an FX0A without a key event (log 14). -/
def State.advance (s : State) : State := { s with pc := s.pc + 2, awaitingKey := false }

/-- `pc <- target` (R89). -/
def State.jump (s : State) (target : Word) : State := { s with pc := target }

/-- A skip: 2 more than the post-fetch advance when the condition holds (R89, R93). -/
def State.skipIf (s : State) (c : Bool) : State := { s with pc := if c then s.pc + 2 else s.pc }

/-- FX0A without a key event, on the state before the advance: `pc` stays at the instruction and `awaiting_key <- 1`
(R116). -/
def State.waitForKey (s : State) : State := { s with awaitingKey := true }

/-! ### Call stack -/

/-- `Push(v)` (R27): `none` at `SP = STACK_DEPTH`, before any write. -/
def State.push (s : State) (v : Word) : Option State :=
  if h : s.SP.val < Config.stackDepth then
    some { s with stack := s.stack.set s.SP.val v, SP := ⟨s.SP.val + 1, Nat.succ_lt_succ h⟩ }
  else none

/-- `Pop()` (R28): `none` at `SP = 0`. The popped entry stays in the array. -/
def State.pop (s : State) : Option (Word × State) :=
  if h : 0 < s.SP.val then
    some (s.stack[s.SP.val - 1]'(by have := s.SP.isLt; omega), { s with SP := ⟨s.SP.val - 1, by have := s.SP.isLt; omega⟩ })
  else none

/-! ### Framebuffer (R30) and the sprite blitter (R106 to R109) -/

/-- The pixel `FB[col][row]`. -/
def FrameBuffer.pixel (fb : FrameBuffer) (col row : Nat) : Bool :=
  if h : row < Config.fbHeight then fb[row].getLsbD col else false

/-- `FB[col][row] <- FB[col][row] XOR 1`. -/
def FrameBuffer.flip (fb : FrameBuffer) (col row : Nat) : FrameBuffer :=
  if h : row < Config.fbHeight then fb.set row (fb[row] ^^^ (1#Config.fbWidth <<< col)) else fb

/-- All pixels 0 (R105). -/
def FrameBuffer.clear : FrameBuffer := Vector.replicate Config.fbHeight 0

/-- The framebuffer replaced. -/
def State.setFB (s : State) (fb : FrameBuffer) : State := { s with FB := fb }

/-- Sprite pixel `c` of a row whose byte is `b`, at column `x0 + c` of row `row`: bit `7 - c` (R107); past the right edge
nothing (R108); a set bit flips the pixel and records a pixel that was on (R109). The pair is the framebuffer and the collision
so far. -/
def drawPixel (x0 row : Nat) (b : Byte) (p : FrameBuffer × Bool) (c : Nat) : FrameBuffer × Bool :=
  if x0 + c < Config.fbWidth ∧ b.getLsbD (7 - c) = true then
    (FrameBuffer.flip p.1 (x0 + c) row, p.2 || FrameBuffer.pixel p.1 (x0 + c) row)
  else p

/-- Sprite row `r`, read from `base + r`, at screen row `y0 + r`: past the bottom edge nothing (R108). -/
def drawRow (read : Nat → Byte) (base x0 y0 : Nat) (p : FrameBuffer × Bool) (r : Nat) : FrameBuffer × Bool :=
  if y0 + r < Config.fbHeight then (List.range 8).foldl (drawPixel x0 (y0 + r) (read (base + r))) p else p

/-- The sprite of `n` rows at `base` drawn from `(x0, y0)`: the framebuffer after, and whether a pixel was turned off
(R106). -/
def State.blit (s : State) (base x0 y0 n : Nat) : FrameBuffer × Bool :=
  (List.range n).foldl (drawRow s.readByte base x0 y0) (s.FB, false)

/-! ### Faults (R117 to R121) -/

/-- The 8-bit code in `fault_cause` (R118). -/
def causeCode : FaultCause → BitVec 8
  | .none => 0
  | .fetchOutOfBounds => 1
  | .memoryOutOfBounds => 2
  | .stackUnderflow => 3
  | .stackOverflow => 4
  | .keyOutOfRange => 5

/-- Halted (R32, R120). -/
def State.halted (s : State) : Bool := s.faultCause != .none

/-- TAKING A FAULT (R119), on the state before the faulting step, whose `pc` is `ipc`: `pc <- ipc`, `fault_pc <- ipc`,
`fault_op <- op` (0 for a failed fetch), `fault_cause <- c`, `awaiting_key <- 0`, and nothing else. -/
def State.raiseFault (s : State) (c : FaultCause) (op : Word) : State :=
  { s with faultCause := c, faultPc := s.pc, faultOp := op, awaitingKey := false }

/-- `Reset` (R133), the only way out of the halted state (R134): every piece of architectural state at its reset value.
The build, the sampled inputs, the host's coming operations, the diagnostics already emitted and the model's counter are no state
of the block and stay (log 22); `Load` is admitted again (R135). -/
def State.resetBlock (s : State) : State :=
  { State.resetOf s.cfg with inp := s.inp, diag := s.diag, host := s.host, sampleNo := s.sampleNo }

end Sys2Proof.Machine
end

