-- ==== Sys2Proof/Machine/Operands.lean ====
section
/-! DEFINITION. The operand forms (spec R64, R65, R75, R98): widened immediates, the index-plus-offset address with its
bounds check, the registers of a dump, BCD digits, the glyph address, the key operand. -/

namespace Sys2Proof.Machine

open Sys2Proof

/-- A 12-bit address widened to 16 bits with zeros (R65). -/
def zextAddr (nnn : Addr) : Word := nnn.setWidth 16

/-- A register value widened to 16 bits with zeros (R16). -/
def zextByte (v : Byte) : Word := v.setWidth 16

/-- A key value widened to 8 bits with zeros (R116). -/
def zextKey (k : Nibble) : Byte := k.setWidth 8

/-- The address `I`, from which the bytes of an access run upward as unbounded integers (R98). -/
def State.base (s : State) : Nat := s.I.toNat

/-- The bounds check (R45): every one of the `len` addresses `I .. I + len - 1` is at most 0xFFF. No address, no check. -/
def State.inBounds (s : State) (len : Nat) : Bool := decide (len = 0 ∨ s.base + len ≤ Config.memSize)

/-- The registers V0 to Vx, in order (R103). -/
def State.dumpV (s : State) (x : RegIdx) : List Byte := s.V.toList.take (x.val + 1)

/-- The three decimal digits of a byte: hundreds, tens, ones (R102). -/
def bcdDigits (v : Byte) : List Byte :=
  [BitVec.ofNat 8 (v.toNat / 100), BitVec.ofNat 8 (v.toNat / 10 % 10), BitVec.ofNat 8 (v.toNat % 10)]

/-- `V[x] * 5 + FONT_BASE`, the only scaled operand; no mask on `V[x]` (R65, R101). -/
def glyphAddr (b : Config.Build) (v : Byte) : Word := BitVec.ofNat 16 (v.toNat * 5 + b.fontBase.val)

/-- Keys are 0x0 to 0xF (R111). -/
def keyInRange (v : Byte) : Bool := decide (v.toNat ≤ 0xF)

/-- `KeyPressed(k)`: `keys[k]` as sampled for this step (R36). -/
def State.keyPressed (s : State) (v : Byte) : Bool := s.inp.keys.getLsbD v.toNat

/-- The column and row a sprite starts at: `V[x] mod FB_WIDTH`, `V[y] mod FB_HEIGHT` (R106). -/
def State.spriteCol (s : State) (x : RegIdx) : Nat := (s.getV x).toNat % Config.fbWidth
/-- See `State.spriteCol`. -/
def State.spriteRow (s : State) (y : RegIdx) : Nat := (s.getV y).toNat % Config.fbHeight

end Sys2Proof.Machine
end

