-- ==== Sys2Proof/Machine/Arith.lean ====
section
/-! DEFINITION. Meanings of the arithmetic and logic instructions (spec 40_arithmetic, R76 to R88). A meaning takes the state
before the step, whose `pc` is `ipc`, and starts with the advance (R61). Writes happen in the order of the rule's statements
(R17). -/

namespace Sys2Proof.Machine

open Sys2Proof

/-- The outcome type of a meaning. -/
abbrev Result := Host.Outcome State Fault Refusal

/-- 6XNN (R77): `V[x] <- nn`. -/
def execLdImm (x : RegIdx) (nn : Byte) (s : State) : Result := .next (s.advance.setV x nn)

/-- 7XNN (R78): `V[x] <- (V[x] + nn) mod 256`, no flag. -/
def execAddImm (x : RegIdx) (nn : Byte) (s : State) : Result := .next (s.advance.setV x (s.getV x + nn))

/-- 8XY0 (R79). -/
def execLdReg (x y : RegIdx) (s : State) : Result := .next (s.advance.setV x (s.getV y))

/-- 8XY1 (R80): VF is not cleared. -/
def execOrReg (x y : RegIdx) (s : State) : Result := .next (s.advance.setV x (s.getV x ||| s.getV y))

/-- 8XY2 (R81): VF is not cleared. -/
def execAndReg (x y : RegIdx) (s : State) : Result := .next (s.advance.setV x (s.getV x &&& s.getV y))

/-- 8XY3 (R82): VF is not cleared. -/
def execXorReg (x y : RegIdx) (s : State) : Result := .next (s.advance.setV x (s.getV x ^^^ s.getV y))

/-- 8XY4 (R83): the sum, then VF = carry of the operands read at the start. -/
def execAddReg (x y : RegIdx) (s : State) : Result :=
  .next ((s.advance.setV x (s.getV x + s.getV y)).setV VF (carryFlag (s.getV x) (s.getV y)))

/-- 8XY5 (R84): the difference, then VF = NOT borrow. -/
def execSubReg (x y : RegIdx) (s : State) : Result :=
  .next ((s.advance.setV x (s.getV x - s.getV y)).setV VF (notBorrowFlag (s.getV x) (s.getV y)))

/-- 8XY7 (R86): the reverse difference, then VF = NOT borrow. -/
def execSubnReg (x y : RegIdx) (s : State) : Result :=
  .next ((s.advance.setV x (s.getV y - s.getV x)).setV VF (notBorrowFlag (s.getV y) (s.getV x)))

/-- 8XY6 (R85): VF = the bit shifted out, then `V[x]`, read after that write, shifted. `y` is ignored. -/
def execShr (x _y : RegIdx) (s : State) : Result :=
  let s1 := s.advance.setV VF (shiftRightFlag (s.getV x))
  .next (s1.setV x (s1.getV x >>> 1))

/-- 8XYE (R87): VF = the bit shifted out of bit 7, then `V[x]`, read after that write, shifted. `y` is ignored. -/
def execShl (x _y : RegIdx) (s : State) : Result :=
  let s1 := s.advance.setV VF (shiftLeftFlag (s.getV x))
  .next (s1.setV x (s1.getV x <<< 1))

/-- CXNN (R88): `V[x] <- nn & rand`. -/
def execRnd (x : RegIdx) (nn : Byte) (s : State) : Result := .next (s.advance.setV x (nn &&& s.inp.rand))

end Sys2Proof.Machine
end

