-- ==== Sys2Proof/Machine/Control.lean ====
section
/-! DEFINITION. Meanings of the control-flow instructions (spec 41_control_flow, R89 to R97). -/

namespace Sys2Proof.Machine

open Sys2Proof

/-- 00EE (R90): `pc <- Pop()`, the popped value as is; `STACK_UNDERFLOW` on an empty stack. -/
def execRet (s : State) : Result :=
  match s.advance.pop with
  | some (target, s1) => .next (s1.jump target)
  | none => .next (s.raiseFault .stackUnderflow (encode .ret))

/-- 1NNN (R91). -/
def execJp (nnn : Addr) (s : State) : Result := .next (s.advance.jump (zextAddr nnn))

/-- 2NNN (R92): `Push(pc)` with `pc = ipc + 2`, then `pc <- nnn`; `STACK_OVERFLOW` on a full stack. -/
def execCall (nnn : Addr) (s : State) : Result :=
  match s.advance.push s.advance.pc with
  | some s1 => .next (s1.jump (zextAddr nnn))
  | none => .next (s.raiseFault .stackOverflow (encode (.call nnn)))

/-- 3XNN (R93). -/
def execSeImm (x : RegIdx) (nn : Byte) (s : State) : Result := .next (s.advance.skipIf (s.getV x == nn))

/-- 4XNN (R94). -/
def execSneImm (x : RegIdx) (nn : Byte) (s : State) : Result := .next (s.advance.skipIf (s.getV x != nn))

/-- 5XYN (R95): `n` is ignored. -/
def execSeReg (x y : RegIdx) (_n : Nibble) (s : State) : Result :=
  .next (s.advance.skipIf (s.getV x == s.getV y))

/-- 9XYN (R96): `n` is ignored. -/
def execSneReg (x y : RegIdx) (_n : Nibble) (s : State) : Result :=
  .next (s.advance.skipIf (s.getV x != s.getV y))

/-- BXNN (R97): `pc <- (nnn + V[x]) mod 65536`, not reduced to 12 bits. -/
def execJpOff (x : RegIdx) (nnn : Addr) (s : State) : Result :=
  .next (s.advance.jump (zextAddr nnn + zextByte (s.getV x)))

end Sys2Proof.Machine
end

