-- ==== Sys2Proof/Machine/Display.lean ====
section
/-! DEFINITION. Meanings of the display instructions (spec 43_sprite, R105 to R110). -/

namespace Sys2Proof.Machine

open Sys2Proof

/-- 00E0 (R105): all pixels 0, VF unchanged. -/
def execCls (s : State) : Result := .next (s.advance.setFB FrameBuffer.clear)

/-- DXYN (R106): the coordinates are read before VF is written (R110), all `n` row addresses are checked first (R45),
the sprite is XORed in, and VF is the collision (R109). -/
def execDrw (x y : RegIdx) (n : Nibble) (s : State) : Result :=
  let drawn := s.blit s.base (s.spriteCol x) (s.spriteRow y) n.toNat
  .next (if s.inBounds n.toNat then (s.advance.setFB drawn.1).setV VF (collisionFlag drawn.2)
    else s.raiseFault .memoryOutOfBounds (encode (.drw x y n)))

end Sys2Proof.Machine
end

