-- ==== Sys2Proof/Machine/Index.lean ====
section
/-! DEFINITION. Meanings of the index-register and memory-access instructions (spec 42_memory_access, R98 to R104). The
bounds check of R45 comes before any effect; no instruction changes `I` as a side effect of an access (R98). -/

namespace Sys2Proof.Machine

open Sys2Proof

/-- ANNN (R99). -/
def execLdI (nnn : Addr) (s : State) : Result := .next (s.advance.setI (zextAddr nnn))

/-- FX1E (R100): `I <- (I + V[x]) mod 65536`; VF only in a build with the quirk (R13). -/
def execAddI (x : RegIdx) (s : State) : Result :=
  let s1 := s.advance.setI (s.I + zextByte (s.getV x))
  .next (if s.cfg.quirkFx1eVf then s1.setV VF (indexOverflowFlag s.I (s.getV x)) else s1)

/-- FX29 (R101). -/
def execLdF (x : RegIdx) (s : State) : Result := .next (s.advance.setI (glyphAddr s.cfg (s.getV x)))

/-- FX33 (R102): the digits of `V[x]` at `I`, `I + 1`, `I + 2`. -/
def execLdB (x : RegIdx) (s : State) : Result :=
  .next (if s.inBounds 3 then s.advance.writeBytes s.base (bcdDigits (s.getV x))
    else s.raiseFault .memoryOutOfBounds (encode (.ldB x)))

/-- FX55 (R103): V0 to Vx at `I .. I + x`. -/
def execStRegs (x : RegIdx) (s : State) : Result :=
  .next (if s.inBounds (x.val + 1) then s.advance.writeBytes s.base (s.dumpV x)
    else s.raiseFault .memoryOutOfBounds (encode (.stRegs x)))

/-- FX65 (R104): V0 to Vx from `I .. I + x`. -/
def execLdRegs (x : RegIdx) (s : State) : Result :=
  .next (if s.inBounds (x.val + 1) then s.advance.loadV s.base x
    else s.raiseFault .memoryOutOfBounds (encode (.ldRegs x)))

end Sys2Proof.Machine
end

