-- ==== Sys2Proof/Machine/KeyTimer.lean ====
section
/-! DEFINITION. Meanings of the key and timer instructions (spec 44_timer_key, R111 to R116). -/

namespace Sys2Proof.Machine

open Sys2Proof

/-- EX9E (R111): skip if key `V[x]` is pressed; `KEY_OUT_OF_RANGE` above 0xF. -/
def execSkp (x : RegIdx) (s : State) : Result :=
  .next (if keyInRange (s.getV x) then s.advance.skipIf (s.keyPressed (s.getV x))
    else s.raiseFault .keyOutOfRange (encode (.skp x)))

/-- EXA1 (R112): skip if key `V[x]` is not pressed; `KEY_OUT_OF_RANGE` above 0xF. -/
def execSknp (x : RegIdx) (s : State) : Result :=
  .next (if keyInRange (s.getV x) then s.advance.skipIf (!s.keyPressed (s.getV x))
    else s.raiseFault .keyOutOfRange (encode (.sknp x)))

/-- FX07 (R113). -/
def execLdVDt (x : RegIdx) (s : State) : Result := .next (s.advance.setV x s.DT)

/-- FX15 (R114). -/
def execLdDtV (x : RegIdx) (s : State) : Result := .next (s.advance.setDT (s.getV x))

/-- FX18 (R115). -/
def execLdStV (x : RegIdx) (s : State) : Result := .next (s.advance.setST (s.getV x))

/-- FX0A (R116): with a key event `V[x] <- k`; with none `pc` stays at the instruction and `awaiting_key <- 1`. -/
def execLdVK (x : RegIdx) (s : State) : Result :=
  .next (match s.inp.keyEvent with
    | some k => s.advance.setV x (zextKey k)
    | none => s.waitForKey)

end Sys2Proof.Machine
end

