-- ==== Sys2Proof/Machine/HostOps.lean ====
section
/-! DEFINITION. The operations of the host other than `Step` (spec R40): `Tick` (R127), `Load` (R135), `Reset` and `Read`;
and the sampling of a step's inputs (R62). -/

namespace Sys2Proof.Machine

open Sys2Proof

/-- One timer less 1 while it is not 0 (R127). -/
def tickTimer (t : Byte) : Byte := if t = 0 then 0 else t - 1

/-- `Tick()` (R127): both counters, independently, and nothing else; halted or not (R128). -/
def State.tick (s : State) : State := { s with DT := tickTimer s.DT, ST := tickTimer s.ST }

/-- `Load(bytes)` (R135): the bytes from 0x200, refused when they do not fit and when it is not admitted. -/
def hostLoad (bytes : List Byte) (s : State) : Result :=
  if !s.loadOpen then .refused .loadNotAdmitted
  else if bytes.length > Config.maxProgram then .refused .programTooLarge
  else .next (s.writeBytes Config.programBase bytes)

/-- `Reset` (R133). -/
def hostReset (s : State) : Result := .next s.resetBlock

/-- `Tick` (R127). -/
def hostTick (s : State) : Result := .next s.tick

/-- `Read` of state, which changes nothing (R39, R40): what the host reads is the state itself. -/
def hostRead (s : State) : Result := .next s

/-- The inputs of a step sampled once (R62); a `Step` closes the window in which `Load` is admitted (R135). -/
def State.sample (s : State) (inp : Inputs) : State := { s with inp := inp, loadOpen := false }

/-- The inputs of a step for which the state holds no operation of the host: free values (log 6). -/
def freeInputs (n : Nat) : Inputs :=
  { keys := Config.freeKeys n, keyEvent := Config.freeKeyEvent n, rand := Config.freeRand n }

/-- The counter of the free inputs advanced, so that the next step takes fresh ones. -/
def State.countSample (s : State) : State := { s with sampleNo := s.sampleNo + 1 }

/-- The operation at the head of the host's list taken off it. -/
def State.withHost (s : State) (ops : List HostOp) : State := { s with host := ops }

end Sys2Proof.Machine
end

