-- ==== Sys2Proof/Machine/Cycle.lean ====
section
/-! DEFINITION. One `Step` of the block: the halted test, fetch, decode, execute (spec R59 to R62, R72); and what `step` does
with the host's next operation (R40). -/

namespace Sys2Proof.Machine

open Sys2Proof

/-- Fetch (R59): the big-endian word at `pc`, odd or even (R47); `none` when `pc + 1 > 0xFFF`. -/
def State.fetch (s : State) : Option Word :=
  if s.pc.toNat + 1 > 0xFFF then none
  else some (wordOfBytes (s.readByte s.pc.toNat) (s.readByte (s.pc.toNat + 1)))

/-- A fetched word that is no instruction (R72): the event `decode_error(ipc, op)`, `pc` moves on by 2, and nothing
else. -/
def State.decodeError (s : State) (op : Word) : State :=
  { s.advance with diag := { ipc := s.pc, op := op } :: s.diag }

/-- Fetch, decode and execute, the inputs being sampled (R62). -/
def fetchAndRun (s : State) : Result :=
  match s.fetch with
  | none => .next (s.raiseFault .fetchOutOfBounds 0)
  | some op =>
    match decode op with
    | some i => exec i s
    | none => .next (s.decodeError op)

/-- One `Step` with the inputs presented for it (R62): halted, it changes nothing (R120). -/
def runStep (inp : Inputs) (s : State) : Result :=
  if s.halted then .next s else fetchAndRun (s.sample inp)

/-- A `Step` whose inputs nothing in the state gives: free inputs, fresh at every step (log 5, log 6). -/
def runFreeStep (s : State) : Result :=
  if s.halted then .next s else fetchAndRun (s.countSample.sample (freeInputs s.sampleNo))

/-- The host's operation `op`, on the state it is issued in (R40). -/
def perform (op : HostOp) (s : State) : Result :=
  match op with
  | .reset => hostReset s
  | .load bytes => hostLoad bytes s
  | .step inp => runStep inp s
  | .tick => hostTick s
  | .read => hostRead s

/-- The host's next operation: the head of its list, or a free step when the list is empty. -/
def performNext (s : State) : Result :=
  match s.host with
  | [] => runFreeStep s
  | op :: rest => perform op (s.withHost rest)

/-- The state with the word `op` where the next step fetches it, as the hardware stores it (R46), and that step being the
very next operation: not halted, `pc` where a fetch is in bounds (the program's base when it is not), a `Step` with the inputs
the state holds at the head of the host's list (log 10). -/
def State.placeWord (s : State) (op : Word) : State :=
  let at_ : Word := if s.pc.toNat + 1 > 0xFFF then BitVec.ofNat 16 Config.programBase else s.pc
  { s.writeBytes at_.toNat [opHighByte op, opLowByte op] with
    pc := at_, faultCause := .none, host := .step s.inp :: s.host }

end Sys2Proof.Machine
end

