-- ==== Sys2Proof/Machine/Step.lean ====
section
/-! DEFINITION. One step of the machine: one atomic operation of the host (spec R40, R49), a `Step` of the block when the
state holds no other. -/

namespace Sys2Proof.Machine

open Sys2Proof

/-- One operation performed to completion: next, fault or refusal. -/
def step (s : State) : Host.Outcome State Fault Refusal := performNext s

/-- `s` with the instruction whose bits are `w` (numbered as spec/opcode_table.json numbers them) where `step` fetches
its next instruction, so that the very next `step` fetches and runs it. -/
def State.withFetchWord (s : State) (nbits w : Nat) : State := s.placeWord (tableWord nbits w)

end Sys2Proof.Machine
end

