-- ==== Sys2Proof/Safety.lean ====
section
/-! DEFINITION. The terms the claims use: what an instruction may write (its frame), the advance of `pc`, the table of fault
conditions (spec R118), the reset values (R41), the end of a run (R143), the pixels of a sprite (R107, R108), and the invariant
of the machine. -/

namespace Sys2Proof.Machine

open Sys2Proof

/-- What an instruction may write beside `pc` and `awaiting_key`: the named registers, the `memLen` bytes from `memFrom`,
and each part whose flag is set. -/
structure Writes where
  regs    : List RegIdx := []
  memFrom : Nat := 0
  memLen  : Nat := 0
  index   : Bool := false
  stack   : Bool := false
  delay   : Bool := false
  sound   : Bool := false
  screen  : Bool := false
  deriving DecidableEq, Repr

/-- From `s` to `t` nothing changed but what `w` names, `pc` and `awaiting_key`. The fault registers and the interface
never change. -/
def Keeps (w : Writes) (s t : State) : Prop :=
  (∀ r, r ∉ w.regs → t.getV r = s.getV r) ∧
  (∀ a, ¬(w.memFrom ≤ a ∧ a < w.memFrom + w.memLen) → t.readByte a = s.readByte a) ∧
  (w.index = false → t.I = s.I) ∧
  (w.stack = false → t.SP = s.SP ∧ t.stack = s.stack) ∧
  (w.delay = false → t.DT = s.DT) ∧
  (w.sound = false → t.ST = s.ST) ∧
  (w.screen = false → t.FB = s.FB) ∧
  (t.faultCause = s.faultCause ∧ t.faultPc = s.faultPc ∧ t.faultOp = s.faultOp) ∧
  (t.cfg = s.cfg ∧ t.inp = s.inp ∧ t.diag = s.diag ∧ t.host = s.host ∧ t.loadOpen = s.loadOpen ∧
    t.sampleNo = s.sampleNo)

/-- The word `w`, as a number, is the encoding of `i` (R63). -/
def Encodes (w : Nat) (i : Instr) : Prop := decode (BitVec.ofNat 16 w) = some i

/-- `awaiting_key` is 0 and `pc` moved on by `k` bytes, `mod 65536` (R23, R34, R61). -/
def MovesOn (k : Nat) (s t : State) : Prop :=
  t.pc.toNat = (s.pc.toNat + k) % 65536 ∧ t.awaitingKey = false

/-- `awaiting_key` is 0 and `pc` holds `target` (R34, R89). -/
def GoesTo (target : Nat) (t : State) : Prop :=
  t.pc.toNat = target ∧ t.awaitingKey = false

/-- The state a fault leaves (R119), from the state before the faulting step: the fault registers written, `awaiting_key`
0, `pc` still at the faulting instruction, everything else as it was. -/
def faulted (s : State) (c : FaultCause) (op : Word) : State :=
  { s with faultCause := c, faultPc := s.pc, faultOp := op, awaitingKey := false }

/-- The cause an instruction raises in a state, `none` where it raises no fault: the conditions of R118. -/
def faultOf : Instr → State → FaultCause
  | .ret, s => if s.SP.val = 0 then .stackUnderflow else .none
  | .call _, s => if s.SP.val = 16 then .stackOverflow else .none
  | .drw _ _ n, s => if 1 ≤ n.toNat ∧ s.I.toNat + (n.toNat - 1) > 0xFFF then .memoryOutOfBounds else .none
  | .ldB _, s => if s.I.toNat + 2 > 0xFFF then .memoryOutOfBounds else .none
  | .stRegs x, s => if s.I.toNat + x.val > 0xFFF then .memoryOutOfBounds else .none
  | .ldRegs x, s => if s.I.toNat + x.val > 0xFFF then .memoryOutOfBounds else .none
  | .skp x, s => if (s.getV x).toNat > 0xF then .keyOutOfRange else .none
  | .sknp x, s => if (s.getV x).toNat > 0xF then .keyOutOfRange else .none
  | .cls, _ | .jp _, _ | .seImm _ _, _ | .sneImm _ _, _ | .seReg _ _ _, _ | .ldImm _ _, _ | .addImm _ _, _
  | .ldReg _ _, _ | .orReg _ _, _ | .andReg _ _, _ | .xorReg _ _, _ | .addReg _ _, _ | .subReg _ _, _
  | .shr _ _, _ | .subnReg _ _, _ | .shl _ _, _ | .sneReg _ _ _, _ | .ldI _, _ | .jpOff _ _, _ | .rnd _ _, _
  | .ldVDt _, _ | .ldVK _, _ | .ldDtV _, _ | .ldStV _, _ | .addI _, _ | .ldF _, _ => .none

/-- The final `pc` (the table of R24): the instruction's own address after a fault and after an FX0A without a key event, the
target of a jump, call or return, 4 bytes on after a skip whose condition holds, else 2 bytes on. -/
def nextPc (i : Instr) (s : State) : Nat :=
  let onBy (k : Nat) : Nat := (s.pc.toNat + k) % 65536
  if faultOf i s ≠ .none then s.pc.toNat
  else match i with
    | .jp nnn | .call nnn => nnn.toNat
    | .jpOff x nnn => nnn.toNat + (s.getV x).toNat
    | .ret => ((s.stack[s.SP.val - 1]?).getD 0).toNat
    | .seImm x nn => if s.getV x = nn then onBy 4 else onBy 2
    | .sneImm x nn => if s.getV x = nn then onBy 2 else onBy 4
    | .seReg x y _ => if s.getV x = s.getV y then onBy 4 else onBy 2
    | .sneReg x y _ => if s.getV x = s.getV y then onBy 2 else onBy 4
    | .skp x => if s.inp.keys.getLsbD (s.getV x).toNat = true then onBy 4 else onBy 2
    | .sknp x => if s.inp.keys.getLsbD (s.getV x).toNat = true then onBy 2 else onBy 4
    | .ldVK _ => if s.inp.keyEvent = Option.none then s.pc.toNat else onBy 2
    | .cls | .ldImm _ _ | .addImm _ _ | .ldReg _ _ | .orReg _ _ | .andReg _ _ | .xorReg _ _ | .addReg _ _ | .subReg _ _
    | .shr _ _ | .subnReg _ _ | .shl _ _ | .ldI _ | .rnd _ _ | .drw _ _ _ | .ldVDt _ | .ldDtV _ | .ldStV _ | .addI _
    | .ldF _ | .ldB _ | .stRegs _ | .ldRegs _ => onBy 2

/-- The registers an instruction may write (the write rows of R22): its destination, and VF where it is a flag. -/
def regsWritten (quirk : Bool) : Instr → List RegIdx
  | .ldImm x _ | .addImm x _ | .ldReg x _ | .orReg x _ | .andReg x _ | .xorReg x _ | .rnd x _ | .ldVDt x
  | .ldVK x => [x]
  | .addReg x _ | .subReg x _ | .shr x _ | .subnReg x _ | .shl x _ => [x, VF]
  | .drw _ _ _ => [VF]
  | .addI _ => if quirk then [VF] else []
  | .ldRegs x => (List.finRange 16).filter (· ≤ x)
  | .cls | .ret | .jp _ | .call _ | .seImm _ _ | .sneImm _ _ | .seReg _ _ _ | .sneReg _ _ _ | .ldI _ | .jpOff _ _
  | .skp _ | .sknp _ | .ldDtV _ | .ldStV _ | .ldF _ | .ldB _ | .stRegs _ => []

/-- Everything an instruction may write in a state: its registers, and R25, R26, R29, R30, R48 for the rest. -/
def writesOf (s : State) : Instr → Writes
  | .ret => { stack := true }
  | .call _ => { stack := true }
  | .cls => { screen := true }
  | .drw _ _ _ => { regs := [VF], screen := true }
  | .ldI _ => { index := true }
  | .addI x => { regs := regsWritten s.cfg.quirkFx1eVf (.addI x), index := true }
  | .ldF _ => { index := true }
  | .ldB _ => { memFrom := s.I.toNat, memLen := 3 }
  | .stRegs x => { memFrom := s.I.toNat, memLen := x.val + 1 }
  | .ldDtV _ => { delay := true }
  | .ldStV _ => { sound := true }
  | i => { regs := regsWritten s.cfg.quirkFx1eVf i }

/-- The values after reset (R41), for the build `b`. -/
def HoldsResetValues (b : Config.Build) (t : State) : Prop :=
  t.cfg = b ∧
  (∀ d r : Nat, (hd : d < 16) → (hr : r < 5) → t.readByte (b.fontBase.val + 5 * d + r) = b.font[d][r]) ∧
  (∀ a, a < b.fontBase.val ∨ b.fontBase.val + 80 ≤ a → t.readByte a = 0) ∧
  t.pc = 0x200 ∧ (∀ r, t.getV r = 0) ∧ t.I = 0 ∧ t.SP.val = 0 ∧ (∀ k : Fin 16, t.stack[k] = 0) ∧
  t.DT = 0 ∧ t.ST = 0 ∧ (∀ col row, FrameBuffer.pixel t.FB col row = false) ∧
  causeCode t.faultCause = 0 ∧ t.faultPc = 0 ∧ t.faultOp = 0 ∧ t.awaitingKey = false

/-- The end of a run (R143): no fault, not waiting, and the next instruction is a jump to itself. -/
def Ended (s : State) : Prop :=
  s.faultCause = .none ∧ s.awaitingKey = false ∧ s.pc.toNat + 1 ≤ 0xFFF ∧
  ((s.readByte s.pc.toNat).toNat <<< 8 ||| (s.readByte (s.pc.toNat + 1)).toNat) = (0x1000 ||| s.pc.toNat)

/-- Whether the sprite of `n` rows at `I`, drawn from `(x0, y0)`, has a set bit that lands on `(col, row)` (R107): bit
`7 - c` of the byte at `I + r` lands on column `x0 + c` of row `y0 + r`. -/
def spriteBit (s : State) (x0 y0 n col row : Nat) : Bool :=
  decide (x0 ≤ col ∧ col < x0 + 8 ∧ y0 ≤ row ∧ row < y0 + n) &&
    (s.readByte (s.I.toNat + (row - y0))).getLsbD (7 - (col - x0))

/-- The fault registers tell what halted the block (R32, R33, R118, R119): while it runs they are 0; halted, `pc` and
`fault_pc` are at the instruction that raised the cause, `fault_op` is its word, and its condition still holds. -/
def FaultRecordHolds (s : State) : Prop :=
  match s.faultCause with
  | .none => s.faultPc = 0 ∧ s.faultOp = 0
  | .fetchOutOfBounds => s.faultPc = s.pc ∧ s.faultOp = 0 ∧ s.awaitingKey = false ∧ s.pc.toNat + 1 > 0xFFF
  | c => s.faultPc = s.pc ∧ s.awaitingKey = false ∧ s.fetch = some s.faultOp ∧
      ∃ i, decode s.faultOp = some i ∧ faultOf i s = c

/-- `awaiting_key` is 1 only while `pc` points at an FX0A (R34). -/
def WaitsAtKeyWait (s : State) : Prop :=
  s.awaitingKey = true → s.faultCause = .none ∧ ∃ op x, s.fetch = some op ∧ decode op = some (.ldVK x)

/-- `Load` is admitted only while the block has neither waited nor faulted since its reset (R135). -/
def LoadBeforeRun (s : State) : Prop :=
  s.loadOpen = true → s.faultCause = .none ∧ s.awaitingKey = false

/-- The machine's invariant: memory in canonical form, the fault record true, the key wait at an FX0A, the load window before
the run. -/
def Inv (s : State) : Prop :=
  Memory.wf s.cfg s.mem ∧ FaultRecordHolds s ∧ WaitsAtKeyWait s ∧ LoadBeforeRun s

end Sys2Proof.Machine
end

