-- ==== Sys2Proof/Certificates/Slice0/Obligations.lean ====
section
/-! DEFINITION. The statements for the provers: the spec's rules about the machine and its instructions, each over every state
(spec files cited by rule number). `Keeps w s t` is the frame: nothing changed but what `w` names, `pc` and `awaiting_key`.
`MovesOn` and `GoesTo` say what those two become: the advance of `pc` before execution is the spec's decision D9, the
`awaiting_key` bit its decision D14 (log 14), the halting fault of the `faulted` states its decisions D6 and D7; a statement with
such a clause cites no rule for that clause. Where a statement says nothing of `pc`, `NextPcFollowsTable` and
`AwaitingKeyTellsKeyWait` do. -/

open Sys2Proof Sys2Proof.Machine

/-! ### Encoding -/

/-- Decoding the word of a well-formed instruction gives it back, for every instruction and every operand value (R60, R63,
R64, R66 to R71). -/
def Obligations.DecodeOfEncode : Prop :=
  ∀ i : Instr, WellFormed i = true → decode (encode i) = some i

/-- A word that decodes is the word of the instruction it decodes to, and that instruction is well formed: no two words share
an instruction and no bit of a word is lost (R60, R64, R73). -/
def Obligations.EncodeOfDecode : Prop :=
  ∀ (op : Word) (i : Instr), decode op = some i → WellFormed i = true ∧ encode i = op

/-- The opcode map (R67 to R71), on the word as a number: the family is its top nibble, and in families 0x0, 0x8, 0xE and 0xF
the sub-selector picks the instruction; in every other family all 4096 operands decode to the family's instruction. The fields are
R64's. -/
def Obligations.DecodeFollowsOpcodeMap : Prop :=
  ∀ (op : Word) (x y : RegIdx) (n : Nibble) (nn : Byte) (nnn : Addr),
    x.val = op.toNat / 256 % 16 → y.val = op.toNat / 16 % 16 → n.toNat = op.toNat % 16 → nn.toNat = op.toNat % 256 →
    nnn.toNat = op.toNat % 4096 →
    decode op = match op.toNat / 4096 with
      | 0x0 => if nnn.toNat = 0x0E0 then some .cls else if nnn.toNat = 0x0EE then some .ret else none
      | 0x1 => some (.jp nnn)
      | 0x2 => some (.call nnn)
      | 0x3 => some (.seImm x nn)
      | 0x4 => some (.sneImm x nn)
      | 0x5 => some (.seReg x y n)
      | 0x6 => some (.ldImm x nn)
      | 0x7 => some (.addImm x nn)
      | 0x8 => match n.toNat with
        | 0x0 => some (.ldReg x y)
        | 0x1 => some (.orReg x y)
        | 0x2 => some (.andReg x y)
        | 0x3 => some (.xorReg x y)
        | 0x4 => some (.addReg x y)
        | 0x5 => some (.subReg x y)
        | 0x6 => some (.shr x y)
        | 0x7 => some (.subnReg x y)
        | 0xE => some (.shl x y)
        | _ => none
      | 0x9 => some (.sneReg x y n)
      | 0xA => some (.ldI nnn)
      | 0xB => some (.jpOff x nnn)
      | 0xC => some (.rnd x nn)
      | 0xD => some (.drw x y n)
      | 0xE => match nn.toNat with
        | 0x9E => some (.skp x)
        | 0xA1 => some (.sknp x)
        | _ => none
      | _ => match nn.toNat with
        | 0x07 => some (.ldVDt x)
        | 0x0A => some (.ldVK x)
        | 0x15 => some (.ldDtV x)
        | 0x18 => some (.ldStV x)
        | 0x1E => some (.addI x)
        | 0x29 => some (.ldF x)
        | 0x33 => some (.ldB x)
        | 0x55 => some (.stRegs x)
        | 0x65 => some (.ldRegs x)
        | _ => none

/-- The words that decode to no instruction, by their bits as numbers: exactly the four sets that R72 lists (R67 to
R71). -/
def Obligations.UndecodedWordsAreExactly : Prop :=
  ∀ op : Word, decode op = none ↔
    (op.toNat / 4096 = 0x0 ∧ op.toNat % 4096 ∉ [0x0E0, 0x0EE]) ∨
    (op.toNat / 4096 = 0x8 ∧ op.toNat % 16 ∈ [0x8, 0x9, 0xA, 0xB, 0xC, 0xD, 0xF]) ∨
    (op.toNat / 4096 = 0xE ∧ op.toNat % 256 ∉ [0x9E, 0xA1]) ∨
    (op.toNat / 4096 = 0xF ∧ op.toNat % 256 ∉ [0x07, 0x0A, 0x15, 0x18, 0x1E, 0x29, 0x33, 0x55, 0x65])

/-- Words written out from the formats of R63, one of each format, decode to the instruction they stand for. -/
def Obligations.WrittenOutWordsDecode : Prop :=
  decode 0x00EE = some .ret ∧ decode 0x2ABC = some (.call 0xABC) ∧ decode 0xB21F = some (.jpOff 2 0x21F) ∧
  decode 0x6A42 = some (.ldImm 10 0x42) ∧ decode 0x5123 = some (.seReg 1 2 3) ∧ decode 0x8CD5 = some (.subReg 12 13) ∧
  decode 0xD12F = some (.drw 1 2 0xF) ∧ decode 0xE39E = some (.skp 3) ∧ decode 0xF765 = some (.ldRegs 7) ∧
  decode 0x0123 = none ∧ decode 0x8128 = none

/-- A decoder of bytes always consumes two (R74), big-endian (R46): it succeeds exactly on two bytes whose big-endian word is
an instruction's, and leaves the bytes after them. -/
def Obligations.ByteDecoderConsumesTwo : Prop :=
  ∀ (bytes rest : List Byte) (i : Instr), decodeBytes bytes = .ok (i, rest) ↔
    ∃ (hi lo : Byte) (op : Word), bytes = hi :: lo :: rest ∧ op.toNat = hi.toNat * 256 + lo.toNat ∧ decode op = some i

/-! ### Reset and the host's operations -/

/-- After reset every piece of state holds the value of R41, whatever the build. The values the source does not list are the
spec's decision D17. That `Load` is then admitted is R135 (the spec's decision D22), through the model's flag (log 8,
DEDUCED). -/
def Obligations.ResetHoldsResetValues : Prop :=
  (∀ b : Config.Build, HoldsResetValues b (State.resetOf b) ∧ (State.resetOf b).loadOpen = true) ∧
  HoldsResetValues State.reset.cfg State.reset

/-- The build of `State.reset`: the quirk off (log 3, PRESUMED: the default of R13), FONT_BASE = 0x050 (log 1, PRESUMED) and the
font of R31 (log 2, PRESUMED: from general knowledge by the spec's own words). Glyph B lies at 0x087. -/
def Obligations.ResetFontPlacement : Prop :=
  State.reset.cfg.quirkFx1eVf = false ∧
  (List.range 5).map (fun k => (State.reset.readByte (0x050 + 11 * 5 + k)).toNat) = [0xE0, 0x90, 0xE0, 0x90, 0xE0] ∧
  State.reset.readByte 0x04F = 0 ∧ State.reset.readByte 0x0A0 = 0

/-- `Reset` may be issued at any time, halted too, and puts every piece of state at the value of R41 (R133, R134); the
coming operations of the host go on (log 22). The values the source does not list are the spec's decision D17; that `Load` is
admitted again is R135 (decision D22), through the model's flag (log 8, DEDUCED). -/
def Obligations.ResetOperationResets : Prop :=
  ∀ (s : State) (rest : List HostOp), s.host = .reset :: rest →
    ∃ t, step s = .next t ∧ HoldsResetValues s.cfg t ∧ t.loadOpen = true ∧ t.host = rest ∧ t.diag = s.diag

/-- `Load` (R135): admitted, a program of at most 3584 bytes is in memory from 0x200 and nothing else changed; a larger one
is refused; after a `Step` (which closes the admission unless the block is halted) every `Load` is refused. The two refusals by
name are the model's form (log 8). -/
def Obligations.LoadPlacesOrIsRefused : Prop :=
  ∀ (s : State) (bytes : List Byte) (rest : List HostOp), s.host = .load bytes :: rest →
    (s.loadOpen = true → bytes.length ≤ 3584 → ∃ t, step s = .next t ∧
      (∀ k (h : k < bytes.length), t.readByte (0x200 + k) = bytes[k]) ∧
      (∀ a, a < 0x200 ∨ 0x200 + bytes.length ≤ a → t.readByte a = s.readByte a) ∧
      t = { s with mem := t.mem, host := rest }) ∧
    (s.loadOpen = true → bytes.length > 3584 → step s = .refused .programTooLarge) ∧
    (s.loadOpen = false → step s = .refused .loadNotAdmitted)

/-- A `Step` of a block that is not halted closes the admission of `Load` (R135, the spec's decision D22), the `Step` of an empty
list too (log 5). The flag is the model's form of the rule (log 8, DEDUCED). -/
def Obligations.StepClosesLoad : Prop :=
  ∀ s t : State, s.faultCause = .none → (s.host = [] ∨ ∃ inp rest, s.host = .step inp :: rest) →
    step s = .next t → t.loadOpen = false

/-- `Tick` (R127): each timer 1 less while it is above 0, no underflow, and nothing else changes, halted or waiting or not
(R128; the spec's decision D16). -/
def Obligations.TickCountsDown : Prop :=
  ∀ (s : State) (rest : List HostOp), s.host = .tick :: rest →
    ∃ t, step s = .next t ∧ t.DT.toNat = s.DT.toNat - 1 ∧ t.ST.toNat = s.ST.toNat - 1 ∧
      t = { s with DT := t.DT, ST := t.ST, host := rest }

/-- `Read` changes nothing (R40). -/
def Obligations.ReadChangesNothing : Prop :=
  ∀ (s : State) (rest : List HostOp), s.host = .read :: rest → step s = .next { s with host := rest }

/-! ### The step -/

/-- A step runs the decoded instruction. When the two bytes at `pc`, combined big-endian, decode to `i`, a `Step` with the
inputs `inp` is `exec i` on the state with those inputs sampled (and the admission of `Load` closed, log 8); with no operation of
the host in the state it is the same with free inputs (log 6). -/
def Obligations.StepRunsDecodedInstruction : Prop :=
  ∀ (s : State) (op : Word) (i : Instr),
    s.faultCause = .none → s.pc.toNat + 1 ≤ 0xFFF →
    op.toNat = (s.readByte s.pc.toNat).toNat * 256 + (s.readByte (s.pc.toNat + 1)).toNat → decode op = some i →
    (∀ (inp : Inputs) (rest : List HostOp), s.host = .step inp :: rest →
      step s = exec i { s with inp := inp, host := rest, loadOpen := false }) ∧
    (s.host = [] →
      ∃ inp : Inputs, step s = exec i { s with inp := inp, loadOpen := false, sampleNo := s.sampleNo + 1 })

/-- The fetch (R59, R46, R47): past 0xFFE, odd or even, a `Step` raises FETCH_OUT_OF_BOUNDS with `fault_pc` = `pc` and
`fault_op` = 0; anywhere else the fetch succeeds and reads the two bytes big-endian (the spec's decisions D6, D7, D8). The `Step`
samples its inputs and closes the admission of `Load` (log 8, DEDUCED from R135, decision D22); with no operation of the host in
the state it does the same with free inputs (log 5, log 6). -/
def Obligations.FetchBounds : Prop :=
  ∀ s : State,
    (s.pc.toNat + 1 ≤ 0xFFF → ∃ op, s.fetch = some op ∧
      op.toNat = (s.readByte s.pc.toNat).toNat * 256 + (s.readByte (s.pc.toNat + 1)).toNat) ∧
    (s.pc.toNat + 1 > 0xFFF → s.faultCause = .none →
      (∀ (inp : Inputs) (rest : List HostOp), s.host = .step inp :: rest →
        step s = .next (faulted { s with inp := inp, host := rest, loadOpen := false } .fetchOutOfBounds 0)) ∧
      (s.host = [] → ∃ inp : Inputs, step s =
        .next (faulted { s with inp := inp, loadOpen := false, sampleNo := s.sampleNo + 1 } .fetchOutOfBounds 0)))

/-- A word that is no instruction (R72): the event `decode_error(ipc, op)`, `pc` moved on by 2, `awaiting_key` 0, and nothing
else of the block's state (the spec's decision D20; the event goes to the model's `diag`, log 9). The `Step` samples its inputs and
closes the admission of `Load` (log 8, DEDUCED from R135, decision D22); with no operation of the host in the state it does the
same with free inputs (log 5, log 6), as in the run from `State.reset` that log 10 describes. -/
def Obligations.DecodeErrorIsNoOp : Prop :=
  ∀ (s : State) (op : Word), s.faultCause = .none → s.fetch = some op → decode op = none →
    ∃ u : State, MovesOn 2 s u ∧ u.diag = { ipc := s.pc, op := op } :: s.diag ∧
      u = { s with pc := u.pc, awaitingKey := false, diag := u.diag } ∧
      (∀ (inp : Inputs) (rest : List HostOp), s.host = .step inp :: rest →
        step s = .next { u with inp := inp, host := rest, loadOpen := false }) ∧
      (s.host = [] → ∃ inp : Inputs,
        step s = .next { u with inp := inp, loadOpen := false, sampleNo := s.sampleNo + 1 })

/-- Halted (R120): a `Step` changes nothing; of the host's operations only `Reset` leaves the halted state; any other leaves the
registers, the stack, the screen, `pc` and the fault registers as they are, and emits nothing (the spec's decisions D7,
D16). -/
def Obligations.HaltedUntilReset : Prop :=
  ∀ s : State, s.faultCause ≠ .none →
    (s.host = [] → step s = .next s) ∧
    (∀ inp rest, s.host = .step inp :: rest → step s = .next { s with host := rest }) ∧
    (∀ t, step s = .next t → (∀ rest, s.host ≠ .reset :: rest) →
      t.faultCause = s.faultCause ∧ t.faultPc = s.faultPc ∧ t.faultOp = s.faultOp ∧ t.pc = s.pc ∧ t.I = s.I ∧
      t.V = s.V ∧ t.stack = s.stack ∧ t.SP = s.SP ∧ t.FB = s.FB ∧ t.awaitingKey = s.awaitingKey ∧ t.diag = s.diag)

/-- No step of the machine ends in a fault or a refusal, but a `Load` that does not fit or is not admitted (R117, R135). -/
def Obligations.StepAnswersNextState : Prop :=
  ∀ s : State, (∃ t, step s = .next t) ∨
    ∃ bytes rest, s.host = .load bytes :: rest ∧ (s.loadOpen = false ∨ bytes.length > 3584)

/-- The end of a run (R143): at a jump to itself every later `Step` leaves the block's state unchanged, and the state is still an
end (the spec's decision D28). What changes is the interface: the inputs sampled, and the admission of `Load` closed (log 8, DEDUCED
from R135, decision D22); with no operation of the host in the state the inputs are free (log 5, log 6). -/
def Obligations.EndedStaysEnded : Prop :=
  ∀ s : State, Ended s →
    (∀ (inp : Inputs) (rest : List HostOp), s.host = .step inp :: rest →
      step s = .next { s with inp := inp, host := rest, loadOpen := false } ∧
      Ended { s with inp := inp, host := rest, loadOpen := false }) ∧
    (s.host = [] → ∃ inp : Inputs,
      step s = .next { s with inp := inp, loadOpen := false, sampleNo := s.sampleNo + 1 } ∧
      Ended { s with inp := inp, loadOpen := false, sampleNo := s.sampleNo + 1 })

/-! ### Arithmetic and logic (40_arithmetic) -/

/-- 6XNN (R77). -/
def Obligations.LoadImmediateResult : Prop :=
  ∀ (x : RegIdx) (nn : Byte) (s : State), Encodes (0x6000 + 256 * x.val + nn.toNat) (.ldImm x nn) ∧
    ∃ t, exec (.ldImm x nn) s = .next t ∧
    t.getV x = nn ∧ Keeps { regs := [x] } s t

/-- 7XNN (R78): wraps, and VF keeps its value unless it is the destination. -/
def Obligations.AddImmediateResult : Prop :=
  ∀ (x : RegIdx) (nn : Byte) (s : State), Encodes (0x7000 + 256 * x.val + nn.toNat) (.addImm x nn) ∧
    ∃ t, exec (.addImm x nn) s = .next t ∧
    (t.getV x).toNat = ((s.getV x).toNat + nn.toNat) % 256 ∧ Keeps { regs := [x] } s t

/-- 8XY0 (R79). -/
def Obligations.RegisterCopyResult : Prop :=
  ∀ (x y : RegIdx) (s : State), Encodes (0x8000 + 256 * x.val + 16 * y.val) (.ldReg x y) ∧
    ∃ t, exec (.ldReg x y) s = .next t ∧
    t.getV x = s.getV y ∧ Keeps { regs := [x] } s t

/-- 8XY1, 8XY2, 8XY3 (R80, R81, R82): bit by bit, and VF is not cleared. -/
def Obligations.BitwiseResults : Prop :=
  ∀ (x y : RegIdx) (s : State),
    (Encodes (0x8001 + 256 * x.val + 16 * y.val) (.orReg x y) ∧
    ∃ t, exec (.orReg x y) s = .next t ∧
      (∀ k, k < 8 → (t.getV x).getLsbD k = ((s.getV x).getLsbD k || (s.getV y).getLsbD k)) ∧
      Keeps { regs := [x] } s t) ∧
    (Encodes (0x8002 + 256 * x.val + 16 * y.val) (.andReg x y) ∧
    ∃ t, exec (.andReg x y) s = .next t ∧
      (∀ k, k < 8 → (t.getV x).getLsbD k = ((s.getV x).getLsbD k && (s.getV y).getLsbD k)) ∧
      Keeps { regs := [x] } s t) ∧
    (Encodes (0x8003 + 256 * x.val + 16 * y.val) (.xorReg x y) ∧
    ∃ t, exec (.xorReg x y) s = .next t ∧
      (∀ k, k < 8 → (t.getV x).getLsbD k = ((s.getV x).getLsbD k ^^ (s.getV y).getLsbD k)) ∧
      Keeps { regs := [x] } s t)

/-- 8XY4 (R83): the wrapped sum, VF the carry, written last (with `x` = 15 VF is the carry: the spec's
decision D10). -/
def Obligations.AddWithCarryResult : Prop :=
  ∀ (x y : RegIdx) (s : State), Encodes (0x8004 + 256 * x.val + 16 * y.val) (.addReg x y) ∧
    ∃ t, exec (.addReg x y) s = .next t ∧
    (x ≠ VF → (t.getV x).toNat = ((s.getV x).toNat + (s.getV y).toNat) % 256) ∧
    (t.getV VF).toNat = (if (s.getV x).toNat + (s.getV y).toNat > 255 then 1 else 0) ∧
    MovesOn 2 s t ∧ Keeps { regs := [x, VF] } s t

/-- 8XY5 (R84): the wrapped difference, VF = NOT borrow, written last (the spec's decision D10). -/
def Obligations.SubtractResult : Prop :=
  ∀ (x y : RegIdx) (s : State), Encodes (0x8005 + 256 * x.val + 16 * y.val) (.subReg x y) ∧
    ∃ t, exec (.subReg x y) s = .next t ∧
    (x ≠ VF → (t.getV x).toNat = ((s.getV x).toNat + 256 - (s.getV y).toNat) % 256) ∧
    (t.getV VF).toNat = (if (s.getV x).toNat < (s.getV y).toNat then 0 else 1) ∧
    MovesOn 2 s t ∧ Keeps { regs := [x, VF] } s t

/-- 8XY7 (R86): the reverse difference, VF = NOT borrow, written last (the spec's decision D10; the borrow
of 8XY7 is the spec's own derivation). -/
def Obligations.ReverseSubtractResult : Prop :=
  ∀ (x y : RegIdx) (s : State), Encodes (0x8007 + 256 * x.val + 16 * y.val) (.subnReg x y) ∧
    ∃ t, exec (.subnReg x y) s = .next t ∧
    (x ≠ VF → (t.getV x).toNat = ((s.getV y).toNat + 256 - (s.getV x).toNat) % 256) ∧
    (t.getV VF).toNat = (if (s.getV y).toNat < (s.getV x).toNat then 0 else 1) ∧
    MovesOn 2 s t ∧ Keeps { regs := [x, VF] } s t

/-- 8XY6 (R85): VF = bit 0 and then `V[x]` halved; with `x` = 15 VF ends as 0 (the spec's decision D10).
`V[y]` is not read: the result is the same for every `y`. -/
def Obligations.ShiftRightResult : Prop :=
  ∀ (x y : RegIdx) (s : State), Encodes (0x8006 + 256 * x.val + 16 * y.val) (.shr x y) ∧
  (∃ t, exec (.shr x y) s = .next t ∧
    (x ≠ VF → (t.getV x).toNat = (s.getV x).toNat / 2 ∧ (t.getV VF).toNat = (s.getV x).toNat % 2) ∧
    (x = VF → (t.getV VF).toNat = 0) ∧ MovesOn 2 s t ∧ Keeps { regs := [x, VF] } s t) ∧
  ∀ y', exec (.shr x y') s = exec (.shr x y) s

/-- 8XYE (R87): VF = bit 7 and then `V[x]` doubled; with `x` = 15 VF ends as 2 when its bit 7 was 1, else 0 (the
spec's decision D10). `V[y]` is not read. -/
def Obligations.ShiftLeftResult : Prop :=
  ∀ (x y : RegIdx) (s : State), Encodes (0x800E + 256 * x.val + 16 * y.val) (.shl x y) ∧
  (∃ t, exec (.shl x y) s = .next t ∧
    (x ≠ VF → (t.getV x).toNat = (s.getV x).toNat * 2 % 256 ∧ (t.getV VF).toNat = (s.getV x).toNat / 128) ∧
    (x = VF → (t.getV VF).toNat = (if (s.getV VF).toNat ≥ 128 then 2 else 0)) ∧
    MovesOn 2 s t ∧ Keeps { regs := [x, VF] } s t) ∧
  ∀ y', exec (.shl x y') s = exec (.shl x y) s

/-- CXNN (R88): the immediate AND the random byte sampled for the step (any byte: the spec's decision D15). -/
def Obligations.RandomResult : Prop :=
  ∀ (x : RegIdx) (nn : Byte) (s : State), Encodes (0xC000 + 256 * x.val + nn.toNat) (.rnd x nn) ∧
    ∃ t, exec (.rnd x nn) s = .next t ∧
    (∀ k, k < 8 → (t.getV x).getLsbD k = (nn.getLsbD k && s.inp.rand.getLsbD k)) ∧
    MovesOn 2 s t ∧ Keeps { regs := [x] } s t

/-! ### Control flow (41_control_flow) -/

/-- 00EE (R90): `pc` is the popped entry as is, which stays in the array; with `SP = 0` the fault STACK_UNDERFLOW and nothing
else. -/
def Obligations.ReturnResult : Prop :=
  ∀ s : State,
    Encodes 0x00EE .ret ∧
    (s.SP.val ≠ 0 → ∃ t target, exec .ret s = .next t ∧ s.stack[s.SP.val - 1]? = some target ∧
      GoesTo target.toNat t ∧ t.SP.val = s.SP.val - 1 ∧ t.stack = s.stack ∧ Keeps { stack := true } s t) ∧
    (s.SP.val = 0 → exec .ret s = .next (faulted s .stackUnderflow 0x00EE))

/-- 1NNN (R91): the target is the address, zero-extended. -/
def Obligations.JumpResult : Prop :=
  ∀ (nnn : Addr) (s : State), Encodes (0x1000 + nnn.toNat) (.jp nnn) ∧
    ∃ t, exec (.jp nnn) s = .next t ∧ GoesTo nnn.toNat t ∧ Keeps {} s t

/-- 2NNN (R92): `ipc + 2` on top of the stack, the other entries as before, `pc` the target; with `SP = 16` the fault
STACK_OVERFLOW and nothing else (the bound of 16: the spec's decision D3). -/
def Obligations.CallResult : Prop :=
  ∀ (nnn : Addr) (s : State),
    Encodes (0x2000 + nnn.toNat) (.call nnn) ∧
    (s.SP.val ≠ 16 → ∃ t ret, exec (.call nnn) s = .next t ∧ t.SP.val = s.SP.val + 1 ∧
      t.stack[s.SP.val]? = some ret ∧ ret.toNat = (s.pc.toNat + 2) % 65536 ∧
      (∀ k : Nat, k ≠ s.SP.val → t.stack[k]? = s.stack[k]?) ∧
      GoesTo nnn.toNat t ∧ Keeps { stack := true } s t) ∧
    (s.SP.val = 16 → exec (.call nnn) s = .next (faulted s .stackOverflow (BitVec.ofNat 16 (0x2000 + nnn.toNat))))

/-- 3XNN, 4XNN, 5XYN, 9XYN (R93 to R96): 4 bytes on exactly when the condition holds, else 2; `n` is ignored. -/
def Obligations.SkipResults : Prop :=
  ∀ (x y : RegIdx) (nn : Byte) (n : Nibble) (s : State),
    (Encodes (0x3000 + 256 * x.val + nn.toNat) (.seImm x nn) ∧
    ∃ t, exec (.seImm x nn) s = .next t ∧ MovesOn (if s.getV x = nn then 4 else 2) s t ∧ Keeps {} s t) ∧
    (Encodes (0x4000 + 256 * x.val + nn.toNat) (.sneImm x nn) ∧
    ∃ t, exec (.sneImm x nn) s = .next t ∧ MovesOn (if s.getV x = nn then 2 else 4) s t ∧ Keeps {} s t) ∧
    (Encodes (0x5000 + 256 * x.val + 16 * y.val + n.toNat) (.seReg x y n) ∧
    ∃ t, exec (.seReg x y n) s = .next t ∧ MovesOn (if s.getV x = s.getV y then 4 else 2) s t ∧ Keeps {} s t) ∧
    (Encodes (0x9000 + 256 * x.val + 16 * y.val + n.toNat) (.sneReg x y n) ∧
    ∃ t, exec (.sneReg x y n) s = .next t ∧ MovesOn (if s.getV x = s.getV y then 2 else 4) s t ∧ Keeps {} s t)

/-- BXNN (R97): the base plus the offset register, not reduced to 12 bits; and the offset register of the word 0xB000 + nnn
is the one the top nibble of `nnn` names. -/
def Obligations.OffsetJumpResult : Prop :=
  (∀ (x : RegIdx) (nnn : Addr) (s : State), ∃ t, exec (.jpOff x nnn) s = .next t ∧
    GoesTo (nnn.toNat + (s.getV x).toNat) t ∧ Keeps {} s t) ∧
  (∀ nnn : Addr, ∃ x, Encodes (0xB000 + nnn.toNat) (.jpOff x nnn) ∧ x.val = nnn.toNat / 256)

/-- A call and then a return restore `pc` to the instruction after the call, and the stack depth (R92). -/
def Obligations.CallThenReturn : Prop :=
  ∀ (nnn : Addr) (s t u : State), s.SP.val ≠ 16 → exec (.call nnn) s = .next t →
    u.stack = t.stack → u.SP = t.SP →
    ∃ v, exec .ret u = .next v ∧ v.pc.toNat = (s.pc.toNat + 2) % 65536 ∧ v.SP = s.SP

/-! ### Index register and memory (42_memory_access) -/

/-- ANNN (R99). -/
def Obligations.LoadIndexResult : Prop :=
  ∀ (nnn : Addr) (s : State), Encodes (0xA000 + nnn.toNat) (.ldI nnn) ∧
    ∃ t, exec (.ldI nnn) s = .next t ∧
    t.I.toNat = nnn.toNat ∧ MovesOn 2 s t ∧ Keeps { index := true } s t

/-- FX1E (R100): the sum wraps at 16 bits; without the quirk VF keeps its value, with it VF tells whether the sum passed
0xFFF (the wrap and the bound: the spec's decision D12). -/
def Obligations.AddToIndexResult : Prop :=
  ∀ (x : RegIdx) (s : State), Encodes (0xF01E + 256 * x.val) (.addI x) ∧
    ∃ t, exec (.addI x) s = .next t ∧
    t.I.toNat = (s.I.toNat + (s.getV x).toNat) % 65536 ∧
    (s.cfg.quirkFx1eVf = true → (t.getV VF).toNat = (if s.I.toNat + (s.getV x).toNat > 0xFFF then 1 else 0)) ∧
    MovesOn 2 s t ∧ Keeps { regs := if s.cfg.quirkFx1eVf then [VF] else [], index := true } s t

/-- FX29 (R101): five bytes a glyph from `FONT_BASE`, no mask, no wrap; for every `FONT_BASE` (the spec's
decision D4 leaves it OPEN). -/
def Obligations.GlyphAddressResult : Prop :=
  ∀ (x : RegIdx) (s : State), Encodes (0xF029 + 256 * x.val) (.ldF x) ∧
    ∃ t, exec (.ldF x) s = .next t ∧
    t.I.toNat = (s.getV x).toNat * 5 + s.cfg.fontBase.val ∧ MovesOn 2 s t ∧ Keeps { index := true } s t

/-- FX33 (R102): the three decimal digits at `I`, `I + 1`, `I + 2`; `I > 0xFFD` is the fault MEMORY_OUT_OF_BOUNDS with no
byte written (the spec's decision D6). -/
def Obligations.BcdResult : Prop :=
  ∀ (x : RegIdx) (s : State),
    Encodes (0xF033 + 256 * x.val) (.ldB x) ∧
    (s.I.toNat + 2 ≤ 0xFFF → ∃ t, exec (.ldB x) s = .next t ∧
      (t.readByte s.I.toNat).toNat = (s.getV x).toNat / 100 ∧
      (t.readByte (s.I.toNat + 1)).toNat = (s.getV x).toNat / 10 % 10 ∧
      (t.readByte (s.I.toNat + 2)).toNat = (s.getV x).toNat % 10 ∧
      MovesOn 2 s t ∧ Keeps { memFrom := s.I.toNat, memLen := 3 } s t) ∧
    (s.I.toNat + 2 > 0xFFF →
      exec (.ldB x) s = .next (faulted s .memoryOutOfBounds (BitVec.ofNat 16 (0xF033 + 256 * x.val))))

/-- FX55 (R103): V0 to Vx at `I .. I + x`, `I` unchanged; past 0xFFF the fault with no byte written (the spec's
decision D6). -/
def Obligations.RegisterDumpResult : Prop :=
  ∀ (x : RegIdx) (s : State),
    Encodes (0xF055 + 256 * x.val) (.stRegs x) ∧
    (s.I.toNat + x.val ≤ 0xFFF → ∃ t, exec (.stRegs x) s = .next t ∧
      (∀ r : RegIdx, r ≤ x → t.readByte (s.I.toNat + r.val) = s.getV r) ∧
      MovesOn 2 s t ∧ Keeps { memFrom := s.I.toNat, memLen := x.val + 1 } s t) ∧
    (s.I.toNat + x.val > 0xFFF →
      exec (.stRegs x) s = .next (faulted s .memoryOutOfBounds (BitVec.ofNat 16 (0xF055 + 256 * x.val))))

/-- FX65 (R104): V0 to Vx from `I .. I + x`, `I` and the registers above x unchanged; past 0xFFF the fault with no register
written (the spec's decision D6). -/
def Obligations.RegisterLoadResult : Prop :=
  ∀ (x : RegIdx) (s : State),
    Encodes (0xF065 + 256 * x.val) (.ldRegs x) ∧
    (s.I.toNat + x.val ≤ 0xFFF → ∃ t, exec (.ldRegs x) s = .next t ∧
      (∀ r : RegIdx, r ≤ x → t.getV r = s.readByte (s.I.toNat + r.val)) ∧
      MovesOn 2 s t ∧ Keeps { regs := (List.finRange 16).filter (· ≤ x) } s t) ∧
    (s.I.toNat + x.val > 0xFFF →
      exec (.ldRegs x) s = .next (faulted s .memoryOutOfBounds (BitVec.ofNat 16 (0xF065 + 256 * x.val))))

/-- FX55 then FX65 from the same memory restores V0 to Vx, whatever the registers, the screen, the stack and the timers became in
between (R104). -/
def Obligations.DumpThenLoadRestores : Prop :=
  ∀ (x : RegIdx) (s t u : State), s.I.toNat + x.val ≤ 0xFFF → exec (.stRegs x) s = .next t →
    u.I = t.I → (∀ a, u.readByte a = t.readByte a) →
    ∃ v, exec (.ldRegs x) u = .next v ∧ ∀ r : RegIdx, r ≤ x → v.getV r = s.getV r

/-- Code and data share memory (R42, R57, R139): the bytes an FX55 stored are what a later fetch inside them reads, as long as
memory has not changed in between. -/
def Obligations.StoredBytesAreFetched : Prop :=
  ∀ (x r : RegIdx) (s t u : State), s.I.toNat + x.val ≤ 0xFFF → exec (.stRegs x) s = .next t →
    (∀ a, u.readByte a = t.readByte a) → (h : r.val + 1 ≤ x.val) → u.pc.toNat = s.I.toNat + r.val →
    ∃ op, u.fetch = some op ∧
      op.toNat = (s.getV r).toNat * 256 + (s.getV ⟨r.val + 1, by have := x.isLt; omega⟩).toNat

/-! ### Display (43_sprite) -/

/-- 00E0 (R105): every pixel 0, VF unchanged. -/
def Obligations.ClearScreenResult : Prop :=
  ∀ s : State, Encodes 0x00E0 .cls ∧
    ∃ t, exec .cls s = .next t ∧ (∀ col row, FrameBuffer.pixel t.FB col row = false) ∧
    Keeps { screen := true } s t

/-- DXYN (R106 to R110): each pixel of the screen is XORed with the sprite bit that lands on it, from the coordinates the
registers hold at the start; VF is 1 exactly when some pixel went from 1 to 0, else 0. A row address past 0xFFF is the fault
MEMORY_OUT_OF_BOUNDS with the screen and VF unchanged; `n` = 0 draws nothing and never faults. (The
order of the operand reads and the check of clipped rows are the spec's decision D11.) -/
def Obligations.DrawSpriteResult : Prop :=
  ∀ (x y : RegIdx) (n : Nibble) (s : State),
    Encodes (0xD000 + 256 * x.val + 16 * y.val + n.toNat) (.drw x y n) ∧
    (¬(1 ≤ n.toNat ∧ s.I.toNat + (n.toNat - 1) > 0xFFF) → ∃ t, exec (.drw x y n) s = .next t ∧
      (∀ col row, col < 64 → row < 32 → FrameBuffer.pixel t.FB col row =
        (FrameBuffer.pixel s.FB col row ^^
          spriteBit s ((s.getV x).toNat % 64) ((s.getV y).toNat % 32) n.toNat col row)) ∧
      ((∃ col row, col < 64 ∧ row < 32 ∧ FrameBuffer.pixel s.FB col row = true ∧
          FrameBuffer.pixel t.FB col row = false) → (t.getV VF).toNat = 1) ∧
      ((∀ col row, col < 64 → row < 32 → FrameBuffer.pixel s.FB col row = true →
          FrameBuffer.pixel t.FB col row = true) → (t.getV VF).toNat = 0) ∧
      MovesOn 2 s t ∧ Keeps { regs := [VF], screen := true } s t) ∧
    (1 ≤ n.toNat ∧ s.I.toNat + (n.toNat - 1) > 0xFFF → exec (.drw x y n) s =
      .next (faulted s .memoryOutOfBounds (BitVec.ofNat 16 (0xD000 + 256 * x.val + 16 * y.val + n.toNat))))

/-- Drawing the same sprite twice at the same coordinates restores the screen, and the second draw sets VF = 1 when some set bit
of the sprite lands on a pixel of the screen that was off (R109); for `x` and `y` other than VF, which the first draw writes. -/
def Obligations.DrawTwiceRestores : Prop :=
  ∀ (x y : RegIdx) (n : Nibble) (s t : State), x ≠ VF → y ≠ VF → faultOf (.drw x y n) s = .none →
    exec (.drw x y n) s = .next t →
    ∃ u, exec (.drw x y n) t = .next u ∧ u.FB = s.FB ∧
      (∀ col row, col < 64 → row < 32 → FrameBuffer.pixel s.FB col row = false →
        spriteBit s ((s.getV x).toNat % 64) ((s.getV y).toNat % 32) n.toNat col row = true → (u.getV VF).toNat = 1)

/-! ### Keys and timers (44_timer_key) -/

/-- EX9E, EXA1 (R111, R112): 4 bytes on when the key `V[x]` is down, respectively up, in the sample of this step, else 2; a
value above 0xF is the fault KEY_OUT_OF_RANGE (the spec's decision D13; the sampling D25). -/
def Obligations.KeySkipResults : Prop :=
  ∀ (x : RegIdx) (s : State),
    Encodes (0xE09E + 256 * x.val) (.skp x) ∧ Encodes (0xE0A1 + 256 * x.val) (.sknp x) ∧
    ((s.getV x).toNat ≤ 0xF →
      (∃ t, exec (.skp x) s = .next t ∧
        MovesOn (if s.inp.keys.getLsbD (s.getV x).toNat = true then 4 else 2) s t ∧ Keeps {} s t) ∧
      (∃ t, exec (.sknp x) s = .next t ∧
        MovesOn (if s.inp.keys.getLsbD (s.getV x).toNat = true then 2 else 4) s t ∧ Keeps {} s t)) ∧
    ((s.getV x).toNat > 0xF →
      exec (.skp x) s = .next (faulted s .keyOutOfRange (BitVec.ofNat 16 (0xE09E + 256 * x.val))) ∧
      exec (.sknp x) s = .next (faulted s .keyOutOfRange (BitVec.ofNat 16 (0xE0A1 + 256 * x.val))))

/-- FX07, FX15, FX18 (R113, R114, R115). -/
def Obligations.TimerMoveResults : Prop :=
  ∀ (x : RegIdx) (s : State),
    (Encodes (0xF007 + 256 * x.val) (.ldVDt x) ∧
    ∃ t, exec (.ldVDt x) s = .next t ∧ t.getV x = s.DT ∧ MovesOn 2 s t ∧ Keeps { regs := [x] } s t) ∧
    (Encodes (0xF015 + 256 * x.val) (.ldDtV x) ∧
    ∃ t, exec (.ldDtV x) s = .next t ∧ t.DT = s.getV x ∧ MovesOn 2 s t ∧ Keeps { delay := true } s t) ∧
    (Encodes (0xF018 + 256 * x.val) (.ldStV x) ∧
    ∃ t, exec (.ldStV x) s = .next t ∧ t.ST = s.getV x ∧ MovesOn 2 s t ∧ Keeps { sound := true } s t)

/-- FX0A (R116): with a key event its value in `V[x]` and `pc` moved on; with none `pc` at the instruction, `awaiting_key` 1
and nothing else (the spec's decision D14). -/
def Obligations.KeyWaitResult : Prop :=
  ∀ (x : RegIdx) (s : State),
    Encodes (0xF00A + 256 * x.val) (.ldVK x) ∧
    (∀ k, s.inp.keyEvent = some k → ∃ t, exec (.ldVK x) s = .next t ∧
      (t.getV x).toNat = k.toNat ∧ MovesOn 2 s t ∧ Keeps { regs := [x] } s t) ∧
    (s.inp.keyEvent = none → exec (.ldVK x) s = .next { s with awaitingKey := true })

/-! ### Rules of the whole machine -/

/-- The fault conditions (R118) and precise faults (R119, R121): an instruction raises a cause exactly under the condition the
table gives it, and then the state is as it was before the step but for the fault registers and `awaiting_key`; raising none, it
leaves the fault registers as they were (the spec's decisions D6, D7). -/
def Obligations.FaultsArePreciseAndTabled : Prop :=
  ∀ (i : Instr) (s t : State), exec i s = .next t →
    (faultOf i s ≠ .none → t = faulted s (faultOf i s) (encode i)) ∧
    (faultOf i s = .none → t.faultCause = s.faultCause ∧ t.faultPc = s.faultPc ∧ t.faultOp = s.faultOp)

/-- How each instruction leaves `pc` (R24, the spec's own derivation from the advance of its decision D9): every instruction, from
every state, answers a next state whose `pc` is the one of the table. -/
def Obligations.NextPcFollowsTable : Prop :=
  ∀ (i : Instr) (s : State), ∃ t, exec i s = .next t ∧ t.pc.toNat = nextPc i s

/-- What an instruction that raises no fault may write, over all instructions: the write rows of R22 for the registers; `I`
only by ANNN, FX1E, FX29 (R25); the stack only by 2NNN and 00EE (R26); `DT` only by FX15 and `ST` only by FX18 (R29); the
framebuffer only by 00E0 and DXYN (R30); memory only by FX33 and FX55, at their own addresses (R48). -/
def Obligations.OnlyTheseInstructionsWrite : Prop :=
  ∀ (i : Instr) (s t : State), exec i s = .next t → faultOf i s = .none → Keeps (writesOf s i) s t

/-- `rand` is read by CXNN alone, `keys` by EX9E and EXA1 alone, `key_event` by FX0A alone (R36 to R38, R22): for every other
instruction another value of the input changes nothing. -/
def Obligations.InputsReachOnlyTheirReaders : Prop :=
  ∀ (i : Instr) (s t : State) (p : Inputs), exec i s = .next t →
    ((∃ x nn, i = .rnd x nn) → p.rand = s.inp.rand) →
    ((∃ x, i = .skp x ∨ i = .sknp x) → p.keys = s.inp.keys) →
    ((∃ x, i = .ldVK x) → p.keyEvent = s.inp.keyEvent) →
    exec i { s with inp := p } = .next { t with inp := p }

/-- No instruction reads `ST` (R29, R115): another value of it changes nothing but `ST` itself, which keeps the other value, and
after FX18 holds what it held without the change. -/
def Obligations.SoundTimerIsNotRead : Prop :=
  ∀ (i : Instr) (s t : State) (v : Byte), exec i s = .next t →
    ∃ w, exec i { s with ST := v } = .next { t with ST := w } ∧
      ((∀ x, i ≠ .ldStV x) → w = v) ∧ ((∃ x, i = .ldStV x) → w = t.ST)

/-- The framebuffer is read by DXYN alone (R30): for every other instruction another framebuffer changes nothing but the
framebuffer itself, and 00E0 clears any. -/
def Obligations.ScreenIsReadOnlyByDraw : Prop :=
  ∀ (i : Instr) (s t : State) (fb : FrameBuffer), (∀ x y n, i ≠ .drw x y n) → exec i s = .next t →
    exec i { s with FB := fb } = .next { t with FB := if i = .cls then t.FB else fb }

/-- `awaiting_key` (R34): an instruction leaves it 1 exactly when it is an FX0A that found no key event. -/
def Obligations.AwaitingKeyTellsKeyWait : Prop :=
  ∀ (i : Instr) (s t : State), exec i s = .next t →
    (t.awaitingKey = true ↔ (∃ x, i = .ldVK x) ∧ s.inp.keyEvent = none)

/-- The stale stack entries at and above `SP` are visible to no instruction (R28, R35): states that differ in them alone go
to states that differ in them alone. -/
def Obligations.StaleStackIsInvisible : Prop :=
  ∀ (i : Instr) (s t : State) (stk : Vector Word Config.stackDepth),
    (∀ k : Nat, k < s.SP.val → stk[k]? = s.stack[k]?) → exec i s = .next t →
    ∃ stk', exec i { s with stack := stk } = .next { t with stack := stk' } ∧
      ∀ k : Nat, k < t.SP.val → stk'[k]? = t.stack[k]?

/-- The parameters of the build never change (R19). -/
def Obligations.BuildNeverChanges : Prop :=
  ∀ s t : State, step s = .next t → t.cfg = s.cfg

/-- The invariant holds after reset, whatever the build: the values of R41 (the spec's decision D17) meet it. Its clauses are the
model's canonical form of memory (log 11, DESIGN CHOICE), the fault record (decision D7), the key wait (decision D14) and the
admission of `Load` before the run (log 8, DEDUCED from R135, decision D22). -/
def Obligations.ResetMeetsInvariant : Prop :=
  (∀ b : Config.Build, Inv (State.resetOf b)) ∧ Inv State.reset

/-- Every step keeps the invariant: memory in canonical form (log 11, DESIGN CHOICE), the fault registers telling what halted the
block (R32, R33, R118, R119: the spec's decisions D6, D7), the key wait at an FX0A (R34: D14), the admission of `Load` before the
run (R135: log 8, DEDUCED; D22). -/
def Obligations.StepKeepsInvariant : Prop :=
  ∀ s t : State, Inv s → step s = .next t → Inv t
end

