-- ==== Sys2Proof/Laws/Memory.lean ====
section
/-! SUPPORT. The laws of memory: a read after a write (spec R43, R44, R54), and every operation keeps the canonical
form. -/

namespace Sys2Proof.Machine

open Sys2Proof

variable {b : Config.Build} {m : Memory} {a k : Nat} {v : Byte}

theorem Memory.read_cons (c : Host.Cell) (m : Memory) (k : Nat) :
    Memory.read b (c :: m) k = if c.1 = k then c.2 else Memory.read b m k := rfl

theorem Memory.read_of_not_listed (h : ∀ c ∈ m, c.1 ≠ k) : Memory.read b m k = unlisted b k := by
  induction m with
  | nil => rfl
  | cons c m ih =>
    simp only [List.mem_cons, forall_eq_or_imp] at h
    rw [Memory.read_cons, if_neg h.1, ih h.2]

theorem Memory.not_listed_erase (m : Memory) (a : Nat) : ∀ c ∈ m.erase a, c.1 ≠ a := by
  intro c hc
  simpa using (List.mem_filter.1 hc).2

theorem Memory.read_erase_other (h : k ≠ a) : Memory.read b (m.erase a) k = Memory.read b m k := by
  induction m with
  | nil => rfl
  | cons c m ih =>
    unfold Memory.erase at ih ⊢
    by_cases hc : c.1 = a
    · simp only [List.filter_cons, hc, bne_self_eq_false, Bool.false_eq_true, if_false, ih, Memory.read_cons,
        if_neg (Ne.symm h)]
    · simp only [List.filter_cons, bne_iff_ne.2 hc, if_true, Memory.read_cons, ih]

theorem Memory.read_insert (c : Host.Cell) (h : ∀ d ∈ m, d.1 ≠ c.1) :
    Memory.read b (m.insert c) k = if c.1 = k then c.2 else Memory.read b m k := by
  induction m with
  | nil => rfl
  | cons d m ih =>
    simp only [List.mem_cons, forall_eq_or_imp] at h
    unfold Memory.insert
    split
    · rfl
    · rw [Memory.read_cons, ih h.2, Memory.read_cons]
      by_cases hd : d.1 = k
      · rw [if_pos hd, if_pos hd, if_neg (fun hc => h.1 (hd.trans hc.symm))]
      · rw [if_neg hd, if_neg hd]

/-- A read after a write: the value written at that address, the old byte at every other. -/
theorem Memory.read_write (ha : a < Config.memSize) :
    Memory.read b (m.write b a v) k = if k = a then v else Memory.read b m k := by
  unfold Memory.write
  rw [if_pos ha]
  by_cases hk : k = a
  · subst hk
    rw [if_pos rfl]
    split
    · next hv => rw [Memory.read_of_not_listed (Memory.not_listed_erase m k), hv]
    · rw [Memory.read_insert _ (Memory.not_listed_erase m k), if_pos rfl]
  · rw [if_neg hk]
    split
    · exact Memory.read_erase_other hk
    · rw [Memory.read_insert _ (Memory.not_listed_erase m a), if_neg (Ne.symm hk), Memory.read_erase_other hk]

/-- Bytes written from `a` upward: each at its address, every other address as before. -/
theorem Memory.read_writeList (vs : List Byte) (h : a + vs.length ≤ Config.memSize) :
    Memory.read b (m.writeList b a vs) k =
      if a ≤ k ∧ k < a + vs.length then vs.getD (k - a) 0 else Memory.read b m k := by
  induction vs generalizing m a with
  | nil => simp only [Memory.writeList, List.length_nil]; rw [if_neg (by omega)]
  | cons v vs ih =>
    simp only [List.length_cons] at h ⊢
    rw [Memory.writeList, ih (by omega), Memory.read_write (by omega)]
    by_cases hk : k = a
    · subst hk
      rw [if_neg (by omega), if_pos rfl, if_pos (by omega), Nat.sub_self]
      rfl
    · by_cases hin : a + 1 ≤ k ∧ k < a + 1 + vs.length
      · rw [if_pos hin, if_pos (by omega)]
        obtain ⟨j, rfl⟩ := Nat.exists_eq_add_of_le hin.1
        rw [Nat.add_sub_cancel_left, Nat.add_assoc, Nat.add_sub_cancel_left, Nat.add_comm 1 j, List.getD_cons_succ]
      · rw [if_neg hin, if_neg hk, if_neg (by omega)]

theorem Memory.mem_insert {c d : Host.Cell} : d ∈ m.insert c ↔ d = c ∨ d ∈ m := by
  induction m with
  | nil => simp [Memory.insert]
  | cons e m ih =>
    unfold Memory.insert
    split
    · simp
    · simp only [List.mem_cons, ih]; tauto

theorem Memory.wf_nil : Memory.wf b [] := by simp [Memory.wf]

theorem Memory.wf_erase (h : Memory.wf b m) : Memory.wf b (m.erase a) :=
  ⟨h.1.filter _, fun c hc => h.2 c (List.mem_filter.1 hc).1⟩

theorem Memory.pairwise_insert {c : Host.Cell} (h : m.Pairwise (fun c d => c.1 < d.1)) (hc : ∀ d ∈ m, d.1 ≠ c.1) :
    (m.insert c).Pairwise (fun c d => c.1 < d.1) := by
  induction m with
  | nil => simp [Memory.insert]
  | cons d m ih =>
    simp only [List.mem_cons, forall_eq_or_imp] at hc
    obtain ⟨hd, hm⟩ := List.pairwise_cons.1 h
    unfold Memory.insert
    split
    · next hlt =>
      refine List.pairwise_cons.2 ⟨fun e he => ?_, h⟩
      rcases List.mem_cons.1 he with rfl | he
      · exact hlt
      · exact hlt.trans (hd e he)
    · next hge =>
      refine List.pairwise_cons.2 ⟨fun e he => ?_, ih hm hc.2⟩
      rcases Memory.mem_insert.1 he with rfl | he
      · exact lt_of_le_of_ne (not_lt.1 hge) hc.1
      · exact hd e he

/-- A write keeps the canonical form. -/
theorem Memory.wf_write (h : Memory.wf b m) : Memory.wf b (m.write b a v) := by
  unfold Memory.write
  split
  · next ha =>
    split
    · exact Memory.wf_erase h
    · next hv =>
      refine ⟨Memory.pairwise_insert (Memory.wf_erase h).1 (Memory.not_listed_erase m a), fun c hc => ?_⟩
      rcases Memory.mem_insert.1 hc with rfl | hc
      · exact ⟨ha, hv⟩
      · exact (Memory.wf_erase h).2 c hc
  · exact h

/-- Writing bytes one after another keeps the canonical form. -/
theorem Memory.wf_writeList (vs : List Byte) (h : Memory.wf b m) : Memory.wf b (m.writeList b a vs) := by
  induction vs generalizing m a with
  | nil => exact h
  | cons v vs ih => exact ih (Memory.wf_write h)

/-- Two canonical memories that read the same everywhere are the same list. -/
theorem Memory.eq_of_read_eq {m' : Memory} (h : Memory.wf b m) (h' : Memory.wf b m')
    (hr : ∀ k, Memory.read b m k = Memory.read b m' k) : m = m' := by
  have listed : ∀ {n : Memory}, Memory.wf b n → ∀ {c : Host.Cell}, c ∈ n → Memory.read b n c.1 = c.2 := by
    intro n hn c hc
    induction n with
    | nil => cases hc
    | cons d n ih =>
      rw [Memory.read_cons]
      rcases List.mem_cons.1 hc with rfl | hc
      · rw [if_pos rfl]
      · obtain ⟨hd, hn'⟩ := List.pairwise_cons.1 hn.1
        rw [if_neg (hd c hc).ne]
        exact ih ⟨hn', fun e he => hn.2 e (List.mem_cons_of_mem _ he)⟩ hc
  have sub : ∀ {n n' : Memory}, Memory.wf b n → Memory.wf b n' →
      (∀ k, Memory.read b n k = Memory.read b n' k) → ∀ c ∈ n, c ∈ n' := by
    intro n n' hn hn' hnn c hc
    by_cases hl : ∀ d ∈ n', d.1 ≠ c.1
    · exact absurd ((listed hn hc).symm.trans ((hnn c.1).trans (Memory.read_of_not_listed hl))) (hn.2 c hc).2
    · obtain ⟨d, hd, hdc⟩ : ∃ d ∈ n', d.1 = c.1 := by simpa using hl
      have : d.2 = c.2 := by rw [← listed hn' hd, hdc, ← hnn, listed hn hc]
      rwa [show c = d from Prod.ext hdc.symm this.symm]
  have nodup : ∀ {n : Memory}, Memory.wf b n → n.Nodup :=
    fun hn => hn.1.imp (fun {c d} hcd heq => absurd (congrArg Prod.fst heq) hcd.ne)
  have perm : m.Perm m' := (List.perm_ext_iff_of_nodup (nodup h) (nodup h')).2
    fun c => ⟨sub h h' hr c, sub h' h (fun k => (hr k).symm) c⟩
  exact perm.eq_of_pairwise (fun c d _ _ hcd hdc => absurd hcd hdc.not_gt) h.1 h'.1

end Sys2Proof.Machine
end

