-- ==== Sys2Proof/Laws/State.lean ====
section
/-! SUPPORT. One lemma per field per named update of the state, each true by `rfl`, so that no proof unfolds a record update. -/

namespace Sys2Proof.Machine

open Sys2Proof

/-! `State.writeBytes` -/
@[simp] theorem State.writeBytes_cfg (s : State) (a : Nat) (vs : List Byte) : (s.writeBytes a vs).cfg = s.cfg := rfl
@[simp] theorem State.writeBytes_mem (s : State) (a : Nat) (vs : List Byte) : (s.writeBytes a vs).mem = s.mem.writeList s.cfg a vs := rfl
@[simp] theorem State.writeBytes_pc (s : State) (a : Nat) (vs : List Byte) : (s.writeBytes a vs).pc = s.pc := rfl
@[simp] theorem State.writeBytes_I (s : State) (a : Nat) (vs : List Byte) : (s.writeBytes a vs).I = s.I := rfl
@[simp] theorem State.writeBytes_V (s : State) (a : Nat) (vs : List Byte) : (s.writeBytes a vs).V = s.V := rfl
@[simp] theorem State.writeBytes_stack (s : State) (a : Nat) (vs : List Byte) : (s.writeBytes a vs).stack = s.stack := rfl
@[simp] theorem State.writeBytes_SP (s : State) (a : Nat) (vs : List Byte) : (s.writeBytes a vs).SP = s.SP := rfl
@[simp] theorem State.writeBytes_DT (s : State) (a : Nat) (vs : List Byte) : (s.writeBytes a vs).DT = s.DT := rfl
@[simp] theorem State.writeBytes_ST (s : State) (a : Nat) (vs : List Byte) : (s.writeBytes a vs).ST = s.ST := rfl
@[simp] theorem State.writeBytes_FB (s : State) (a : Nat) (vs : List Byte) : (s.writeBytes a vs).FB = s.FB := rfl
@[simp] theorem State.writeBytes_faultCause (s : State) (a : Nat) (vs : List Byte) : (s.writeBytes a vs).faultCause = s.faultCause := rfl
@[simp] theorem State.writeBytes_faultPc (s : State) (a : Nat) (vs : List Byte) : (s.writeBytes a vs).faultPc = s.faultPc := rfl
@[simp] theorem State.writeBytes_faultOp (s : State) (a : Nat) (vs : List Byte) : (s.writeBytes a vs).faultOp = s.faultOp := rfl
@[simp] theorem State.writeBytes_awaitingKey (s : State) (a : Nat) (vs : List Byte) : (s.writeBytes a vs).awaitingKey = s.awaitingKey := rfl
@[simp] theorem State.writeBytes_inp (s : State) (a : Nat) (vs : List Byte) : (s.writeBytes a vs).inp = s.inp := rfl
@[simp] theorem State.writeBytes_diag (s : State) (a : Nat) (vs : List Byte) : (s.writeBytes a vs).diag = s.diag := rfl
@[simp] theorem State.writeBytes_host (s : State) (a : Nat) (vs : List Byte) : (s.writeBytes a vs).host = s.host := rfl
@[simp] theorem State.writeBytes_loadOpen (s : State) (a : Nat) (vs : List Byte) : (s.writeBytes a vs).loadOpen = s.loadOpen := rfl
@[simp] theorem State.writeBytes_sampleNo (s : State) (a : Nat) (vs : List Byte) : (s.writeBytes a vs).sampleNo = s.sampleNo := rfl

/-! `State.setV` -/
@[simp] theorem State.setV_cfg (s : State) (x : RegIdx) (v : Byte) : (s.setV x v).cfg = s.cfg := rfl
@[simp] theorem State.setV_mem (s : State) (x : RegIdx) (v : Byte) : (s.setV x v).mem = s.mem := rfl
@[simp] theorem State.setV_pc (s : State) (x : RegIdx) (v : Byte) : (s.setV x v).pc = s.pc := rfl
@[simp] theorem State.setV_I (s : State) (x : RegIdx) (v : Byte) : (s.setV x v).I = s.I := rfl
@[simp] theorem State.setV_V (s : State) (x : RegIdx) (v : Byte) : (s.setV x v).V = s.V.set x v := rfl
@[simp] theorem State.setV_stack (s : State) (x : RegIdx) (v : Byte) : (s.setV x v).stack = s.stack := rfl
@[simp] theorem State.setV_SP (s : State) (x : RegIdx) (v : Byte) : (s.setV x v).SP = s.SP := rfl
@[simp] theorem State.setV_DT (s : State) (x : RegIdx) (v : Byte) : (s.setV x v).DT = s.DT := rfl
@[simp] theorem State.setV_ST (s : State) (x : RegIdx) (v : Byte) : (s.setV x v).ST = s.ST := rfl
@[simp] theorem State.setV_FB (s : State) (x : RegIdx) (v : Byte) : (s.setV x v).FB = s.FB := rfl
@[simp] theorem State.setV_faultCause (s : State) (x : RegIdx) (v : Byte) : (s.setV x v).faultCause = s.faultCause := rfl
@[simp] theorem State.setV_faultPc (s : State) (x : RegIdx) (v : Byte) : (s.setV x v).faultPc = s.faultPc := rfl
@[simp] theorem State.setV_faultOp (s : State) (x : RegIdx) (v : Byte) : (s.setV x v).faultOp = s.faultOp := rfl
@[simp] theorem State.setV_awaitingKey (s : State) (x : RegIdx) (v : Byte) : (s.setV x v).awaitingKey = s.awaitingKey := rfl
@[simp] theorem State.setV_inp (s : State) (x : RegIdx) (v : Byte) : (s.setV x v).inp = s.inp := rfl
@[simp] theorem State.setV_diag (s : State) (x : RegIdx) (v : Byte) : (s.setV x v).diag = s.diag := rfl
@[simp] theorem State.setV_host (s : State) (x : RegIdx) (v : Byte) : (s.setV x v).host = s.host := rfl
@[simp] theorem State.setV_loadOpen (s : State) (x : RegIdx) (v : Byte) : (s.setV x v).loadOpen = s.loadOpen := rfl
@[simp] theorem State.setV_sampleNo (s : State) (x : RegIdx) (v : Byte) : (s.setV x v).sampleNo = s.sampleNo := rfl

/-! `State.loadV` -/
@[simp] theorem State.loadV_cfg (s : State) (base : Nat) (x : RegIdx) : (s.loadV base x).cfg = s.cfg := rfl
@[simp] theorem State.loadV_mem (s : State) (base : Nat) (x : RegIdx) : (s.loadV base x).mem = s.mem := rfl
@[simp] theorem State.loadV_pc (s : State) (base : Nat) (x : RegIdx) : (s.loadV base x).pc = s.pc := rfl
@[simp] theorem State.loadV_I (s : State) (base : Nat) (x : RegIdx) : (s.loadV base x).I = s.I := rfl
@[simp] theorem State.loadV_V (s : State) (base : Nat) (x : RegIdx) : (s.loadV base x).V = loadRegs s.cfg s.mem base (x.val + 1) s.V := rfl
@[simp] theorem State.loadV_stack (s : State) (base : Nat) (x : RegIdx) : (s.loadV base x).stack = s.stack := rfl
@[simp] theorem State.loadV_SP (s : State) (base : Nat) (x : RegIdx) : (s.loadV base x).SP = s.SP := rfl
@[simp] theorem State.loadV_DT (s : State) (base : Nat) (x : RegIdx) : (s.loadV base x).DT = s.DT := rfl
@[simp] theorem State.loadV_ST (s : State) (base : Nat) (x : RegIdx) : (s.loadV base x).ST = s.ST := rfl
@[simp] theorem State.loadV_FB (s : State) (base : Nat) (x : RegIdx) : (s.loadV base x).FB = s.FB := rfl
@[simp] theorem State.loadV_faultCause (s : State) (base : Nat) (x : RegIdx) : (s.loadV base x).faultCause = s.faultCause := rfl
@[simp] theorem State.loadV_faultPc (s : State) (base : Nat) (x : RegIdx) : (s.loadV base x).faultPc = s.faultPc := rfl
@[simp] theorem State.loadV_faultOp (s : State) (base : Nat) (x : RegIdx) : (s.loadV base x).faultOp = s.faultOp := rfl
@[simp] theorem State.loadV_awaitingKey (s : State) (base : Nat) (x : RegIdx) : (s.loadV base x).awaitingKey = s.awaitingKey := rfl
@[simp] theorem State.loadV_inp (s : State) (base : Nat) (x : RegIdx) : (s.loadV base x).inp = s.inp := rfl
@[simp] theorem State.loadV_diag (s : State) (base : Nat) (x : RegIdx) : (s.loadV base x).diag = s.diag := rfl
@[simp] theorem State.loadV_host (s : State) (base : Nat) (x : RegIdx) : (s.loadV base x).host = s.host := rfl
@[simp] theorem State.loadV_loadOpen (s : State) (base : Nat) (x : RegIdx) : (s.loadV base x).loadOpen = s.loadOpen := rfl
@[simp] theorem State.loadV_sampleNo (s : State) (base : Nat) (x : RegIdx) : (s.loadV base x).sampleNo = s.sampleNo := rfl

/-! `State.setI` -/
@[simp] theorem State.setI_cfg (s : State) (v : Word) : (s.setI v).cfg = s.cfg := rfl
@[simp] theorem State.setI_mem (s : State) (v : Word) : (s.setI v).mem = s.mem := rfl
@[simp] theorem State.setI_pc (s : State) (v : Word) : (s.setI v).pc = s.pc := rfl
@[simp] theorem State.setI_I (s : State) (v : Word) : (s.setI v).I = v := rfl
@[simp] theorem State.setI_V (s : State) (v : Word) : (s.setI v).V = s.V := rfl
@[simp] theorem State.setI_stack (s : State) (v : Word) : (s.setI v).stack = s.stack := rfl
@[simp] theorem State.setI_SP (s : State) (v : Word) : (s.setI v).SP = s.SP := rfl
@[simp] theorem State.setI_DT (s : State) (v : Word) : (s.setI v).DT = s.DT := rfl
@[simp] theorem State.setI_ST (s : State) (v : Word) : (s.setI v).ST = s.ST := rfl
@[simp] theorem State.setI_FB (s : State) (v : Word) : (s.setI v).FB = s.FB := rfl
@[simp] theorem State.setI_faultCause (s : State) (v : Word) : (s.setI v).faultCause = s.faultCause := rfl
@[simp] theorem State.setI_faultPc (s : State) (v : Word) : (s.setI v).faultPc = s.faultPc := rfl
@[simp] theorem State.setI_faultOp (s : State) (v : Word) : (s.setI v).faultOp = s.faultOp := rfl
@[simp] theorem State.setI_awaitingKey (s : State) (v : Word) : (s.setI v).awaitingKey = s.awaitingKey := rfl
@[simp] theorem State.setI_inp (s : State) (v : Word) : (s.setI v).inp = s.inp := rfl
@[simp] theorem State.setI_diag (s : State) (v : Word) : (s.setI v).diag = s.diag := rfl
@[simp] theorem State.setI_host (s : State) (v : Word) : (s.setI v).host = s.host := rfl
@[simp] theorem State.setI_loadOpen (s : State) (v : Word) : (s.setI v).loadOpen = s.loadOpen := rfl
@[simp] theorem State.setI_sampleNo (s : State) (v : Word) : (s.setI v).sampleNo = s.sampleNo := rfl

/-! `State.setDT` -/
@[simp] theorem State.setDT_cfg (s : State) (v : Byte) : (s.setDT v).cfg = s.cfg := rfl
@[simp] theorem State.setDT_mem (s : State) (v : Byte) : (s.setDT v).mem = s.mem := rfl
@[simp] theorem State.setDT_pc (s : State) (v : Byte) : (s.setDT v).pc = s.pc := rfl
@[simp] theorem State.setDT_I (s : State) (v : Byte) : (s.setDT v).I = s.I := rfl
@[simp] theorem State.setDT_V (s : State) (v : Byte) : (s.setDT v).V = s.V := rfl
@[simp] theorem State.setDT_stack (s : State) (v : Byte) : (s.setDT v).stack = s.stack := rfl
@[simp] theorem State.setDT_SP (s : State) (v : Byte) : (s.setDT v).SP = s.SP := rfl
@[simp] theorem State.setDT_DT (s : State) (v : Byte) : (s.setDT v).DT = v := rfl
@[simp] theorem State.setDT_ST (s : State) (v : Byte) : (s.setDT v).ST = s.ST := rfl
@[simp] theorem State.setDT_FB (s : State) (v : Byte) : (s.setDT v).FB = s.FB := rfl
@[simp] theorem State.setDT_faultCause (s : State) (v : Byte) : (s.setDT v).faultCause = s.faultCause := rfl
@[simp] theorem State.setDT_faultPc (s : State) (v : Byte) : (s.setDT v).faultPc = s.faultPc := rfl
@[simp] theorem State.setDT_faultOp (s : State) (v : Byte) : (s.setDT v).faultOp = s.faultOp := rfl
@[simp] theorem State.setDT_awaitingKey (s : State) (v : Byte) : (s.setDT v).awaitingKey = s.awaitingKey := rfl
@[simp] theorem State.setDT_inp (s : State) (v : Byte) : (s.setDT v).inp = s.inp := rfl
@[simp] theorem State.setDT_diag (s : State) (v : Byte) : (s.setDT v).diag = s.diag := rfl
@[simp] theorem State.setDT_host (s : State) (v : Byte) : (s.setDT v).host = s.host := rfl
@[simp] theorem State.setDT_loadOpen (s : State) (v : Byte) : (s.setDT v).loadOpen = s.loadOpen := rfl
@[simp] theorem State.setDT_sampleNo (s : State) (v : Byte) : (s.setDT v).sampleNo = s.sampleNo := rfl

/-! `State.setST` -/
@[simp] theorem State.setST_cfg (s : State) (v : Byte) : (s.setST v).cfg = s.cfg := rfl
@[simp] theorem State.setST_mem (s : State) (v : Byte) : (s.setST v).mem = s.mem := rfl
@[simp] theorem State.setST_pc (s : State) (v : Byte) : (s.setST v).pc = s.pc := rfl
@[simp] theorem State.setST_I (s : State) (v : Byte) : (s.setST v).I = s.I := rfl
@[simp] theorem State.setST_V (s : State) (v : Byte) : (s.setST v).V = s.V := rfl
@[simp] theorem State.setST_stack (s : State) (v : Byte) : (s.setST v).stack = s.stack := rfl
@[simp] theorem State.setST_SP (s : State) (v : Byte) : (s.setST v).SP = s.SP := rfl
@[simp] theorem State.setST_DT (s : State) (v : Byte) : (s.setST v).DT = s.DT := rfl
@[simp] theorem State.setST_ST (s : State) (v : Byte) : (s.setST v).ST = v := rfl
@[simp] theorem State.setST_FB (s : State) (v : Byte) : (s.setST v).FB = s.FB := rfl
@[simp] theorem State.setST_faultCause (s : State) (v : Byte) : (s.setST v).faultCause = s.faultCause := rfl
@[simp] theorem State.setST_faultPc (s : State) (v : Byte) : (s.setST v).faultPc = s.faultPc := rfl
@[simp] theorem State.setST_faultOp (s : State) (v : Byte) : (s.setST v).faultOp = s.faultOp := rfl
@[simp] theorem State.setST_awaitingKey (s : State) (v : Byte) : (s.setST v).awaitingKey = s.awaitingKey := rfl
@[simp] theorem State.setST_inp (s : State) (v : Byte) : (s.setST v).inp = s.inp := rfl
@[simp] theorem State.setST_diag (s : State) (v : Byte) : (s.setST v).diag = s.diag := rfl
@[simp] theorem State.setST_host (s : State) (v : Byte) : (s.setST v).host = s.host := rfl
@[simp] theorem State.setST_loadOpen (s : State) (v : Byte) : (s.setST v).loadOpen = s.loadOpen := rfl
@[simp] theorem State.setST_sampleNo (s : State) (v : Byte) : (s.setST v).sampleNo = s.sampleNo := rfl

/-! `State.setFB` -/
@[simp] theorem State.setFB_cfg (s : State) (fb : FrameBuffer) : (s.setFB fb).cfg = s.cfg := rfl
@[simp] theorem State.setFB_mem (s : State) (fb : FrameBuffer) : (s.setFB fb).mem = s.mem := rfl
@[simp] theorem State.setFB_pc (s : State) (fb : FrameBuffer) : (s.setFB fb).pc = s.pc := rfl
@[simp] theorem State.setFB_I (s : State) (fb : FrameBuffer) : (s.setFB fb).I = s.I := rfl
@[simp] theorem State.setFB_V (s : State) (fb : FrameBuffer) : (s.setFB fb).V = s.V := rfl
@[simp] theorem State.setFB_stack (s : State) (fb : FrameBuffer) : (s.setFB fb).stack = s.stack := rfl
@[simp] theorem State.setFB_SP (s : State) (fb : FrameBuffer) : (s.setFB fb).SP = s.SP := rfl
@[simp] theorem State.setFB_DT (s : State) (fb : FrameBuffer) : (s.setFB fb).DT = s.DT := rfl
@[simp] theorem State.setFB_ST (s : State) (fb : FrameBuffer) : (s.setFB fb).ST = s.ST := rfl
@[simp] theorem State.setFB_FB (s : State) (fb : FrameBuffer) : (s.setFB fb).FB = fb := rfl
@[simp] theorem State.setFB_faultCause (s : State) (fb : FrameBuffer) : (s.setFB fb).faultCause = s.faultCause := rfl
@[simp] theorem State.setFB_faultPc (s : State) (fb : FrameBuffer) : (s.setFB fb).faultPc = s.faultPc := rfl
@[simp] theorem State.setFB_faultOp (s : State) (fb : FrameBuffer) : (s.setFB fb).faultOp = s.faultOp := rfl
@[simp] theorem State.setFB_awaitingKey (s : State) (fb : FrameBuffer) : (s.setFB fb).awaitingKey = s.awaitingKey := rfl
@[simp] theorem State.setFB_inp (s : State) (fb : FrameBuffer) : (s.setFB fb).inp = s.inp := rfl
@[simp] theorem State.setFB_diag (s : State) (fb : FrameBuffer) : (s.setFB fb).diag = s.diag := rfl
@[simp] theorem State.setFB_host (s : State) (fb : FrameBuffer) : (s.setFB fb).host = s.host := rfl
@[simp] theorem State.setFB_loadOpen (s : State) (fb : FrameBuffer) : (s.setFB fb).loadOpen = s.loadOpen := rfl
@[simp] theorem State.setFB_sampleNo (s : State) (fb : FrameBuffer) : (s.setFB fb).sampleNo = s.sampleNo := rfl

/-! `State.advance` -/
@[simp] theorem State.advance_cfg (s : State) : (s.advance).cfg = s.cfg := rfl
@[simp] theorem State.advance_mem (s : State) : (s.advance).mem = s.mem := rfl
@[simp] theorem State.advance_pc (s : State) : (s.advance).pc = s.pc + 2 := rfl
@[simp] theorem State.advance_I (s : State) : (s.advance).I = s.I := rfl
@[simp] theorem State.advance_V (s : State) : (s.advance).V = s.V := rfl
@[simp] theorem State.advance_stack (s : State) : (s.advance).stack = s.stack := rfl
@[simp] theorem State.advance_SP (s : State) : (s.advance).SP = s.SP := rfl
@[simp] theorem State.advance_DT (s : State) : (s.advance).DT = s.DT := rfl
@[simp] theorem State.advance_ST (s : State) : (s.advance).ST = s.ST := rfl
@[simp] theorem State.advance_FB (s : State) : (s.advance).FB = s.FB := rfl
@[simp] theorem State.advance_faultCause (s : State) : (s.advance).faultCause = s.faultCause := rfl
@[simp] theorem State.advance_faultPc (s : State) : (s.advance).faultPc = s.faultPc := rfl
@[simp] theorem State.advance_faultOp (s : State) : (s.advance).faultOp = s.faultOp := rfl
@[simp] theorem State.advance_awaitingKey (s : State) : (s.advance).awaitingKey = false := rfl
@[simp] theorem State.advance_inp (s : State) : (s.advance).inp = s.inp := rfl
@[simp] theorem State.advance_diag (s : State) : (s.advance).diag = s.diag := rfl
@[simp] theorem State.advance_host (s : State) : (s.advance).host = s.host := rfl
@[simp] theorem State.advance_loadOpen (s : State) : (s.advance).loadOpen = s.loadOpen := rfl
@[simp] theorem State.advance_sampleNo (s : State) : (s.advance).sampleNo = s.sampleNo := rfl

/-! `State.jump` -/
@[simp] theorem State.jump_cfg (s : State) (target : Word) : (s.jump target).cfg = s.cfg := rfl
@[simp] theorem State.jump_mem (s : State) (target : Word) : (s.jump target).mem = s.mem := rfl
@[simp] theorem State.jump_pc (s : State) (target : Word) : (s.jump target).pc = target := rfl
@[simp] theorem State.jump_I (s : State) (target : Word) : (s.jump target).I = s.I := rfl
@[simp] theorem State.jump_V (s : State) (target : Word) : (s.jump target).V = s.V := rfl
@[simp] theorem State.jump_stack (s : State) (target : Word) : (s.jump target).stack = s.stack := rfl
@[simp] theorem State.jump_SP (s : State) (target : Word) : (s.jump target).SP = s.SP := rfl
@[simp] theorem State.jump_DT (s : State) (target : Word) : (s.jump target).DT = s.DT := rfl
@[simp] theorem State.jump_ST (s : State) (target : Word) : (s.jump target).ST = s.ST := rfl
@[simp] theorem State.jump_FB (s : State) (target : Word) : (s.jump target).FB = s.FB := rfl
@[simp] theorem State.jump_faultCause (s : State) (target : Word) : (s.jump target).faultCause = s.faultCause := rfl
@[simp] theorem State.jump_faultPc (s : State) (target : Word) : (s.jump target).faultPc = s.faultPc := rfl
@[simp] theorem State.jump_faultOp (s : State) (target : Word) : (s.jump target).faultOp = s.faultOp := rfl
@[simp] theorem State.jump_awaitingKey (s : State) (target : Word) : (s.jump target).awaitingKey = s.awaitingKey := rfl
@[simp] theorem State.jump_inp (s : State) (target : Word) : (s.jump target).inp = s.inp := rfl
@[simp] theorem State.jump_diag (s : State) (target : Word) : (s.jump target).diag = s.diag := rfl
@[simp] theorem State.jump_host (s : State) (target : Word) : (s.jump target).host = s.host := rfl
@[simp] theorem State.jump_loadOpen (s : State) (target : Word) : (s.jump target).loadOpen = s.loadOpen := rfl
@[simp] theorem State.jump_sampleNo (s : State) (target : Word) : (s.jump target).sampleNo = s.sampleNo := rfl

/-! `State.skipIf` -/
@[simp] theorem State.skipIf_cfg (s : State) (c : Bool) : (s.skipIf c).cfg = s.cfg := rfl
@[simp] theorem State.skipIf_mem (s : State) (c : Bool) : (s.skipIf c).mem = s.mem := rfl
@[simp] theorem State.skipIf_pc (s : State) (c : Bool) : (s.skipIf c).pc = if c then s.pc + 2 else s.pc := rfl
@[simp] theorem State.skipIf_I (s : State) (c : Bool) : (s.skipIf c).I = s.I := rfl
@[simp] theorem State.skipIf_V (s : State) (c : Bool) : (s.skipIf c).V = s.V := rfl
@[simp] theorem State.skipIf_stack (s : State) (c : Bool) : (s.skipIf c).stack = s.stack := rfl
@[simp] theorem State.skipIf_SP (s : State) (c : Bool) : (s.skipIf c).SP = s.SP := rfl
@[simp] theorem State.skipIf_DT (s : State) (c : Bool) : (s.skipIf c).DT = s.DT := rfl
@[simp] theorem State.skipIf_ST (s : State) (c : Bool) : (s.skipIf c).ST = s.ST := rfl
@[simp] theorem State.skipIf_FB (s : State) (c : Bool) : (s.skipIf c).FB = s.FB := rfl
@[simp] theorem State.skipIf_faultCause (s : State) (c : Bool) : (s.skipIf c).faultCause = s.faultCause := rfl
@[simp] theorem State.skipIf_faultPc (s : State) (c : Bool) : (s.skipIf c).faultPc = s.faultPc := rfl
@[simp] theorem State.skipIf_faultOp (s : State) (c : Bool) : (s.skipIf c).faultOp = s.faultOp := rfl
@[simp] theorem State.skipIf_awaitingKey (s : State) (c : Bool) : (s.skipIf c).awaitingKey = s.awaitingKey := rfl
@[simp] theorem State.skipIf_inp (s : State) (c : Bool) : (s.skipIf c).inp = s.inp := rfl
@[simp] theorem State.skipIf_diag (s : State) (c : Bool) : (s.skipIf c).diag = s.diag := rfl
@[simp] theorem State.skipIf_host (s : State) (c : Bool) : (s.skipIf c).host = s.host := rfl
@[simp] theorem State.skipIf_loadOpen (s : State) (c : Bool) : (s.skipIf c).loadOpen = s.loadOpen := rfl
@[simp] theorem State.skipIf_sampleNo (s : State) (c : Bool) : (s.skipIf c).sampleNo = s.sampleNo := rfl

/-! `State.waitForKey` -/
@[simp] theorem State.waitForKey_cfg (s : State) : (s.waitForKey).cfg = s.cfg := rfl
@[simp] theorem State.waitForKey_mem (s : State) : (s.waitForKey).mem = s.mem := rfl
@[simp] theorem State.waitForKey_pc (s : State) : (s.waitForKey).pc = s.pc := rfl
@[simp] theorem State.waitForKey_I (s : State) : (s.waitForKey).I = s.I := rfl
@[simp] theorem State.waitForKey_V (s : State) : (s.waitForKey).V = s.V := rfl
@[simp] theorem State.waitForKey_stack (s : State) : (s.waitForKey).stack = s.stack := rfl
@[simp] theorem State.waitForKey_SP (s : State) : (s.waitForKey).SP = s.SP := rfl
@[simp] theorem State.waitForKey_DT (s : State) : (s.waitForKey).DT = s.DT := rfl
@[simp] theorem State.waitForKey_ST (s : State) : (s.waitForKey).ST = s.ST := rfl
@[simp] theorem State.waitForKey_FB (s : State) : (s.waitForKey).FB = s.FB := rfl
@[simp] theorem State.waitForKey_faultCause (s : State) : (s.waitForKey).faultCause = s.faultCause := rfl
@[simp] theorem State.waitForKey_faultPc (s : State) : (s.waitForKey).faultPc = s.faultPc := rfl
@[simp] theorem State.waitForKey_faultOp (s : State) : (s.waitForKey).faultOp = s.faultOp := rfl
@[simp] theorem State.waitForKey_awaitingKey (s : State) : (s.waitForKey).awaitingKey = true := rfl
@[simp] theorem State.waitForKey_inp (s : State) : (s.waitForKey).inp = s.inp := rfl
@[simp] theorem State.waitForKey_diag (s : State) : (s.waitForKey).diag = s.diag := rfl
@[simp] theorem State.waitForKey_host (s : State) : (s.waitForKey).host = s.host := rfl
@[simp] theorem State.waitForKey_loadOpen (s : State) : (s.waitForKey).loadOpen = s.loadOpen := rfl
@[simp] theorem State.waitForKey_sampleNo (s : State) : (s.waitForKey).sampleNo = s.sampleNo := rfl

/-! `State.raiseFault` -/
@[simp] theorem State.raiseFault_cfg (s : State) (c : FaultCause) (op : Word) : (s.raiseFault c op).cfg = s.cfg := rfl
@[simp] theorem State.raiseFault_mem (s : State) (c : FaultCause) (op : Word) : (s.raiseFault c op).mem = s.mem := rfl
@[simp] theorem State.raiseFault_pc (s : State) (c : FaultCause) (op : Word) : (s.raiseFault c op).pc = s.pc := rfl
@[simp] theorem State.raiseFault_I (s : State) (c : FaultCause) (op : Word) : (s.raiseFault c op).I = s.I := rfl
@[simp] theorem State.raiseFault_V (s : State) (c : FaultCause) (op : Word) : (s.raiseFault c op).V = s.V := rfl
@[simp] theorem State.raiseFault_stack (s : State) (c : FaultCause) (op : Word) : (s.raiseFault c op).stack = s.stack := rfl
@[simp] theorem State.raiseFault_SP (s : State) (c : FaultCause) (op : Word) : (s.raiseFault c op).SP = s.SP := rfl
@[simp] theorem State.raiseFault_DT (s : State) (c : FaultCause) (op : Word) : (s.raiseFault c op).DT = s.DT := rfl
@[simp] theorem State.raiseFault_ST (s : State) (c : FaultCause) (op : Word) : (s.raiseFault c op).ST = s.ST := rfl
@[simp] theorem State.raiseFault_FB (s : State) (c : FaultCause) (op : Word) : (s.raiseFault c op).FB = s.FB := rfl
@[simp] theorem State.raiseFault_faultCause (s : State) (c : FaultCause) (op : Word) : (s.raiseFault c op).faultCause = c := rfl
@[simp] theorem State.raiseFault_faultPc (s : State) (c : FaultCause) (op : Word) : (s.raiseFault c op).faultPc = s.pc := rfl
@[simp] theorem State.raiseFault_faultOp (s : State) (c : FaultCause) (op : Word) : (s.raiseFault c op).faultOp = op := rfl
@[simp] theorem State.raiseFault_awaitingKey (s : State) (c : FaultCause) (op : Word) : (s.raiseFault c op).awaitingKey = false := rfl
@[simp] theorem State.raiseFault_inp (s : State) (c : FaultCause) (op : Word) : (s.raiseFault c op).inp = s.inp := rfl
@[simp] theorem State.raiseFault_diag (s : State) (c : FaultCause) (op : Word) : (s.raiseFault c op).diag = s.diag := rfl
@[simp] theorem State.raiseFault_host (s : State) (c : FaultCause) (op : Word) : (s.raiseFault c op).host = s.host := rfl
@[simp] theorem State.raiseFault_loadOpen (s : State) (c : FaultCause) (op : Word) : (s.raiseFault c op).loadOpen = s.loadOpen := rfl
@[simp] theorem State.raiseFault_sampleNo (s : State) (c : FaultCause) (op : Word) : (s.raiseFault c op).sampleNo = s.sampleNo := rfl

/-! `State.tick` -/
@[simp] theorem State.tick_cfg (s : State) : (s.tick).cfg = s.cfg := rfl
@[simp] theorem State.tick_mem (s : State) : (s.tick).mem = s.mem := rfl
@[simp] theorem State.tick_pc (s : State) : (s.tick).pc = s.pc := rfl
@[simp] theorem State.tick_I (s : State) : (s.tick).I = s.I := rfl
@[simp] theorem State.tick_V (s : State) : (s.tick).V = s.V := rfl
@[simp] theorem State.tick_stack (s : State) : (s.tick).stack = s.stack := rfl
@[simp] theorem State.tick_SP (s : State) : (s.tick).SP = s.SP := rfl
@[simp] theorem State.tick_DT (s : State) : (s.tick).DT = tickTimer s.DT := rfl
@[simp] theorem State.tick_ST (s : State) : (s.tick).ST = tickTimer s.ST := rfl
@[simp] theorem State.tick_FB (s : State) : (s.tick).FB = s.FB := rfl
@[simp] theorem State.tick_faultCause (s : State) : (s.tick).faultCause = s.faultCause := rfl
@[simp] theorem State.tick_faultPc (s : State) : (s.tick).faultPc = s.faultPc := rfl
@[simp] theorem State.tick_faultOp (s : State) : (s.tick).faultOp = s.faultOp := rfl
@[simp] theorem State.tick_awaitingKey (s : State) : (s.tick).awaitingKey = s.awaitingKey := rfl
@[simp] theorem State.tick_inp (s : State) : (s.tick).inp = s.inp := rfl
@[simp] theorem State.tick_diag (s : State) : (s.tick).diag = s.diag := rfl
@[simp] theorem State.tick_host (s : State) : (s.tick).host = s.host := rfl
@[simp] theorem State.tick_loadOpen (s : State) : (s.tick).loadOpen = s.loadOpen := rfl
@[simp] theorem State.tick_sampleNo (s : State) : (s.tick).sampleNo = s.sampleNo := rfl

/-! `State.sample` -/
@[simp] theorem State.sample_cfg (s : State) (p : Inputs) : (s.sample p).cfg = s.cfg := rfl
@[simp] theorem State.sample_mem (s : State) (p : Inputs) : (s.sample p).mem = s.mem := rfl
@[simp] theorem State.sample_pc (s : State) (p : Inputs) : (s.sample p).pc = s.pc := rfl
@[simp] theorem State.sample_I (s : State) (p : Inputs) : (s.sample p).I = s.I := rfl
@[simp] theorem State.sample_V (s : State) (p : Inputs) : (s.sample p).V = s.V := rfl
@[simp] theorem State.sample_stack (s : State) (p : Inputs) : (s.sample p).stack = s.stack := rfl
@[simp] theorem State.sample_SP (s : State) (p : Inputs) : (s.sample p).SP = s.SP := rfl
@[simp] theorem State.sample_DT (s : State) (p : Inputs) : (s.sample p).DT = s.DT := rfl
@[simp] theorem State.sample_ST (s : State) (p : Inputs) : (s.sample p).ST = s.ST := rfl
@[simp] theorem State.sample_FB (s : State) (p : Inputs) : (s.sample p).FB = s.FB := rfl
@[simp] theorem State.sample_faultCause (s : State) (p : Inputs) : (s.sample p).faultCause = s.faultCause := rfl
@[simp] theorem State.sample_faultPc (s : State) (p : Inputs) : (s.sample p).faultPc = s.faultPc := rfl
@[simp] theorem State.sample_faultOp (s : State) (p : Inputs) : (s.sample p).faultOp = s.faultOp := rfl
@[simp] theorem State.sample_awaitingKey (s : State) (p : Inputs) : (s.sample p).awaitingKey = s.awaitingKey := rfl
@[simp] theorem State.sample_inp (s : State) (p : Inputs) : (s.sample p).inp = p := rfl
@[simp] theorem State.sample_diag (s : State) (p : Inputs) : (s.sample p).diag = s.diag := rfl
@[simp] theorem State.sample_host (s : State) (p : Inputs) : (s.sample p).host = s.host := rfl
@[simp] theorem State.sample_loadOpen (s : State) (p : Inputs) : (s.sample p).loadOpen = false := rfl
@[simp] theorem State.sample_sampleNo (s : State) (p : Inputs) : (s.sample p).sampleNo = s.sampleNo := rfl

/-! `State.countSample` -/
@[simp] theorem State.countSample_cfg (s : State) : (s.countSample).cfg = s.cfg := rfl
@[simp] theorem State.countSample_mem (s : State) : (s.countSample).mem = s.mem := rfl
@[simp] theorem State.countSample_pc (s : State) : (s.countSample).pc = s.pc := rfl
@[simp] theorem State.countSample_I (s : State) : (s.countSample).I = s.I := rfl
@[simp] theorem State.countSample_V (s : State) : (s.countSample).V = s.V := rfl
@[simp] theorem State.countSample_stack (s : State) : (s.countSample).stack = s.stack := rfl
@[simp] theorem State.countSample_SP (s : State) : (s.countSample).SP = s.SP := rfl
@[simp] theorem State.countSample_DT (s : State) : (s.countSample).DT = s.DT := rfl
@[simp] theorem State.countSample_ST (s : State) : (s.countSample).ST = s.ST := rfl
@[simp] theorem State.countSample_FB (s : State) : (s.countSample).FB = s.FB := rfl
@[simp] theorem State.countSample_faultCause (s : State) : (s.countSample).faultCause = s.faultCause := rfl
@[simp] theorem State.countSample_faultPc (s : State) : (s.countSample).faultPc = s.faultPc := rfl
@[simp] theorem State.countSample_faultOp (s : State) : (s.countSample).faultOp = s.faultOp := rfl
@[simp] theorem State.countSample_awaitingKey (s : State) : (s.countSample).awaitingKey = s.awaitingKey := rfl
@[simp] theorem State.countSample_inp (s : State) : (s.countSample).inp = s.inp := rfl
@[simp] theorem State.countSample_diag (s : State) : (s.countSample).diag = s.diag := rfl
@[simp] theorem State.countSample_host (s : State) : (s.countSample).host = s.host := rfl
@[simp] theorem State.countSample_loadOpen (s : State) : (s.countSample).loadOpen = s.loadOpen := rfl
@[simp] theorem State.countSample_sampleNo (s : State) : (s.countSample).sampleNo = s.sampleNo + 1 := rfl

/-! `State.withHost` -/
@[simp] theorem State.withHost_cfg (s : State) (ops : List HostOp) : (s.withHost ops).cfg = s.cfg := rfl
@[simp] theorem State.withHost_mem (s : State) (ops : List HostOp) : (s.withHost ops).mem = s.mem := rfl
@[simp] theorem State.withHost_pc (s : State) (ops : List HostOp) : (s.withHost ops).pc = s.pc := rfl
@[simp] theorem State.withHost_I (s : State) (ops : List HostOp) : (s.withHost ops).I = s.I := rfl
@[simp] theorem State.withHost_V (s : State) (ops : List HostOp) : (s.withHost ops).V = s.V := rfl
@[simp] theorem State.withHost_stack (s : State) (ops : List HostOp) : (s.withHost ops).stack = s.stack := rfl
@[simp] theorem State.withHost_SP (s : State) (ops : List HostOp) : (s.withHost ops).SP = s.SP := rfl
@[simp] theorem State.withHost_DT (s : State) (ops : List HostOp) : (s.withHost ops).DT = s.DT := rfl
@[simp] theorem State.withHost_ST (s : State) (ops : List HostOp) : (s.withHost ops).ST = s.ST := rfl
@[simp] theorem State.withHost_FB (s : State) (ops : List HostOp) : (s.withHost ops).FB = s.FB := rfl
@[simp] theorem State.withHost_faultCause (s : State) (ops : List HostOp) : (s.withHost ops).faultCause = s.faultCause := rfl
@[simp] theorem State.withHost_faultPc (s : State) (ops : List HostOp) : (s.withHost ops).faultPc = s.faultPc := rfl
@[simp] theorem State.withHost_faultOp (s : State) (ops : List HostOp) : (s.withHost ops).faultOp = s.faultOp := rfl
@[simp] theorem State.withHost_awaitingKey (s : State) (ops : List HostOp) : (s.withHost ops).awaitingKey = s.awaitingKey := rfl
@[simp] theorem State.withHost_inp (s : State) (ops : List HostOp) : (s.withHost ops).inp = s.inp := rfl
@[simp] theorem State.withHost_diag (s : State) (ops : List HostOp) : (s.withHost ops).diag = s.diag := rfl
@[simp] theorem State.withHost_host (s : State) (ops : List HostOp) : (s.withHost ops).host = ops := rfl
@[simp] theorem State.withHost_loadOpen (s : State) (ops : List HostOp) : (s.withHost ops).loadOpen = s.loadOpen := rfl
@[simp] theorem State.withHost_sampleNo (s : State) (ops : List HostOp) : (s.withHost ops).sampleNo = s.sampleNo := rfl

/-! `State.decodeError` -/
@[simp] theorem State.decodeError_cfg (s : State) (op : Word) : (s.decodeError op).cfg = s.cfg := rfl
@[simp] theorem State.decodeError_mem (s : State) (op : Word) : (s.decodeError op).mem = s.mem := rfl
@[simp] theorem State.decodeError_pc (s : State) (op : Word) : (s.decodeError op).pc = s.pc + 2 := rfl
@[simp] theorem State.decodeError_I (s : State) (op : Word) : (s.decodeError op).I = s.I := rfl
@[simp] theorem State.decodeError_V (s : State) (op : Word) : (s.decodeError op).V = s.V := rfl
@[simp] theorem State.decodeError_stack (s : State) (op : Word) : (s.decodeError op).stack = s.stack := rfl
@[simp] theorem State.decodeError_SP (s : State) (op : Word) : (s.decodeError op).SP = s.SP := rfl
@[simp] theorem State.decodeError_DT (s : State) (op : Word) : (s.decodeError op).DT = s.DT := rfl
@[simp] theorem State.decodeError_ST (s : State) (op : Word) : (s.decodeError op).ST = s.ST := rfl
@[simp] theorem State.decodeError_FB (s : State) (op : Word) : (s.decodeError op).FB = s.FB := rfl
@[simp] theorem State.decodeError_faultCause (s : State) (op : Word) : (s.decodeError op).faultCause = s.faultCause := rfl
@[simp] theorem State.decodeError_faultPc (s : State) (op : Word) : (s.decodeError op).faultPc = s.faultPc := rfl
@[simp] theorem State.decodeError_faultOp (s : State) (op : Word) : (s.decodeError op).faultOp = s.faultOp := rfl
@[simp] theorem State.decodeError_awaitingKey (s : State) (op : Word) : (s.decodeError op).awaitingKey = false := rfl
@[simp] theorem State.decodeError_inp (s : State) (op : Word) : (s.decodeError op).inp = s.inp := rfl
@[simp] theorem State.decodeError_diag (s : State) (op : Word) : (s.decodeError op).diag = { ipc := s.pc, op := op } :: s.diag := rfl
@[simp] theorem State.decodeError_host (s : State) (op : Word) : (s.decodeError op).host = s.host := rfl
@[simp] theorem State.decodeError_loadOpen (s : State) (op : Word) : (s.decodeError op).loadOpen = s.loadOpen := rfl
@[simp] theorem State.decodeError_sampleNo (s : State) (op : Word) : (s.decodeError op).sampleNo = s.sampleNo := rfl

/-! Register and memory reads after an update that leaves them alone. -/

@[simp] theorem State.getV_writeBytes (s : State) (a : Nat) (vs : List Byte) (r : RegIdx) : (s.writeBytes a vs).getV r = s.getV r := rfl
@[simp] theorem State.readByte_setV (s : State) (x : RegIdx) (v : Byte) (k : Nat) : (s.setV x v).readByte k = s.readByte k := rfl
@[simp] theorem State.readByte_loadV (s : State) (base : Nat) (x : RegIdx) (k : Nat) : (s.loadV base x).readByte k = s.readByte k := rfl
@[simp] theorem State.getV_setI (s : State) (v : Word) (r : RegIdx) : (s.setI v).getV r = s.getV r := rfl
@[simp] theorem State.readByte_setI (s : State) (v : Word) (k : Nat) : (s.setI v).readByte k = s.readByte k := rfl
@[simp] theorem State.getV_setDT (s : State) (v : Byte) (r : RegIdx) : (s.setDT v).getV r = s.getV r := rfl
@[simp] theorem State.readByte_setDT (s : State) (v : Byte) (k : Nat) : (s.setDT v).readByte k = s.readByte k := rfl
@[simp] theorem State.getV_setST (s : State) (v : Byte) (r : RegIdx) : (s.setST v).getV r = s.getV r := rfl
@[simp] theorem State.readByte_setST (s : State) (v : Byte) (k : Nat) : (s.setST v).readByte k = s.readByte k := rfl
@[simp] theorem State.getV_setFB (s : State) (fb : FrameBuffer) (r : RegIdx) : (s.setFB fb).getV r = s.getV r := rfl
@[simp] theorem State.readByte_setFB (s : State) (fb : FrameBuffer) (k : Nat) : (s.setFB fb).readByte k = s.readByte k := rfl
@[simp] theorem State.getV_advance (s : State) (r : RegIdx) : (s.advance).getV r = s.getV r := rfl
@[simp] theorem State.readByte_advance (s : State) (k : Nat) : (s.advance).readByte k = s.readByte k := rfl
@[simp] theorem State.getV_jump (s : State) (target : Word) (r : RegIdx) : (s.jump target).getV r = s.getV r := rfl
@[simp] theorem State.readByte_jump (s : State) (target : Word) (k : Nat) : (s.jump target).readByte k = s.readByte k := rfl
@[simp] theorem State.getV_skipIf (s : State) (c : Bool) (r : RegIdx) : (s.skipIf c).getV r = s.getV r := rfl
@[simp] theorem State.readByte_skipIf (s : State) (c : Bool) (k : Nat) : (s.skipIf c).readByte k = s.readByte k := rfl
@[simp] theorem State.getV_waitForKey (s : State) (r : RegIdx) : (s.waitForKey).getV r = s.getV r := rfl
@[simp] theorem State.readByte_waitForKey (s : State) (k : Nat) : (s.waitForKey).readByte k = s.readByte k := rfl
@[simp] theorem State.getV_raiseFault (s : State) (c : FaultCause) (op : Word) (r : RegIdx) : (s.raiseFault c op).getV r = s.getV r := rfl
@[simp] theorem State.readByte_raiseFault (s : State) (c : FaultCause) (op : Word) (k : Nat) : (s.raiseFault c op).readByte k = s.readByte k := rfl
@[simp] theorem State.getV_tick (s : State) (r : RegIdx) : (s.tick).getV r = s.getV r := rfl
@[simp] theorem State.readByte_tick (s : State) (k : Nat) : (s.tick).readByte k = s.readByte k := rfl
@[simp] theorem State.getV_sample (s : State) (p : Inputs) (r : RegIdx) : (s.sample p).getV r = s.getV r := rfl
@[simp] theorem State.readByte_sample (s : State) (p : Inputs) (k : Nat) : (s.sample p).readByte k = s.readByte k := rfl
@[simp] theorem State.getV_countSample (s : State) (r : RegIdx) : (s.countSample).getV r = s.getV r := rfl
@[simp] theorem State.readByte_countSample (s : State) (k : Nat) : (s.countSample).readByte k = s.readByte k := rfl
@[simp] theorem State.getV_withHost (s : State) (ops : List HostOp) (r : RegIdx) : (s.withHost ops).getV r = s.getV r := rfl
@[simp] theorem State.readByte_withHost (s : State) (ops : List HostOp) (k : Nat) : (s.withHost ops).readByte k = s.readByte k := rfl
@[simp] theorem State.getV_decodeError (s : State) (op : Word) (r : RegIdx) : (s.decodeError op).getV r = s.getV r := rfl
@[simp] theorem State.readByte_decodeError (s : State) (op : Word) (k : Nat) : (s.decodeError op).readByte k = s.readByte k := rfl

end Sys2Proof.Machine
end

