-- ==== Sys2Proof/Laws/Ops.lean ====
section
/-! SUPPORT. One lemma per shared operation that says everything it can do: registers (spec R20), memory (R44, R48), the
register load (R104), the call stack (R27, R28), and the reads that the other updates leave alone. -/

namespace Sys2Proof.Machine

open Sys2Proof

theorem State.getV_eq (s : State) (r : RegIdx) : s.getV r = s.V[r.val] := rfl

/-- A register read after a register write. -/
theorem State.getV_setV (s : State) (x r : RegIdx) (v : Byte) :
    (s.setV x v).getV r = if r = x then v else s.getV r := by
  simp only [State.getV_eq, State.setV, Vector.getElem_set, Fin.ext_iff, eq_comm]

theorem State.readByte_eq (s : State) (a : Nat) : s.readByte a = s.mem.read s.cfg a := rfl

/-- Reads of memory depend on nothing but the memory and the build. -/
theorem State.readByte_congr {s t : State} (hm : t.mem = s.mem) (hc : t.cfg = s.cfg) (a : Nat) :
    t.readByte a = s.readByte a := by rw [State.readByte_eq, State.readByte_eq, hm, hc]

/-- Reads of registers depend on nothing but the register file. -/
theorem State.getV_congr {s t : State} (h : t.V = s.V) (r : RegIdx) : t.getV r = s.getV r := by
  simp only [State.getV_eq, h]

/-- A byte read after bytes were written inside the space. -/
theorem State.readByte_writeBytes (s : State) (a k : Nat) (vs : List Byte) (h : a + vs.length ≤ Config.memSize) :
    (s.writeBytes a vs).readByte k = if a ≤ k ∧ k < a + vs.length then vs.getD (k - a) 0 else s.readByte k :=
  Memory.read_writeList vs h

theorem State.wf_writeBytes {s : State} (a : Nat) (vs : List Byte) (h : Memory.wf s.cfg s.mem) :
    Memory.wf (s.writeBytes a vs).cfg (s.writeBytes a vs).mem := Memory.wf_writeList vs h

theorem getElem_loadRegs (b : Config.Build) (m : Memory) (base k : Nat) (V : Vector Byte 16) (r : Nat) (hr : r < 16) :
    (loadRegs b m base k V)[r] = if r < k then m.read b (base + r) else V[r] := by
  induction k with
  | zero => simp [loadRegs]
  | succ k ih =>
    simp only [loadRegs]
    split
    · rw [Vector.getElem_set]
      by_cases hk : k = r
      · subst hk; rw [if_pos rfl, if_pos (Nat.lt_succ_self _)]
      · rw [if_neg hk, ih]
        by_cases hlt : r < k
        · rw [if_pos hlt, if_pos (by omega)]
        · rw [if_neg hlt, if_neg (by omega)]
    · rw [ih, if_pos (by omega), if_pos (by omega)]

/-- V0 to Vx after a register load, and the registers above x. -/
theorem State.getV_loadV (s : State) (base : Nat) (x r : RegIdx) :
    (s.loadV base x).getV r = if r ≤ x then s.readByte (base + r.val) else s.getV r := by
  rw [State.getV_eq]
  show (loadRegs s.cfg s.mem base (x.val + 1) s.V)[r.val] = _
  rw [getElem_loadRegs _ _ _ _ _ _ r.isLt]
  simp only [Nat.lt_succ_iff, Fin.le_def]
  rfl

theorem State.length_dumpV (s : State) (x : RegIdx) : (s.dumpV x).length = x.val + 1 := by
  simp only [State.dumpV, List.length_take, Vector.length_toList]; omega

/-- Byte `k` of a register dump is register `k`. -/
theorem State.getD_dumpV (s : State) (x r : RegIdx) (h : r ≤ x) : (s.dumpV x).getD r.val 0 = s.getV r := by
  have hr : r.val < (s.dumpV x).length := by rw [State.length_dumpV]; exact Nat.lt_succ_of_le h
  rw [List.getD_eq_getElem _ _ hr]
  simp only [State.dumpV, List.getElem_take, Vector.getElem_toList]
  rfl

/-- What a push can do: at the bound nothing; below it the value on top, `SP` one more, the other entries and the rest of the
state as before. -/
theorem State.push_cases (s : State) (v : Word) :
    (s.SP.val = 16 ∧ s.push v = none) ∨
    (∃ h : s.SP.val < 16, s.push v =
      some { s with stack := s.stack.set s.SP.val v, SP := ⟨s.SP.val + 1, Nat.succ_lt_succ h⟩ }) := by
  by_cases h : s.SP.val < 16
  · exact .inr ⟨h, dif_pos h⟩
  · exact .inl ⟨by have : s.SP.val < 17 := s.SP.isLt; omega, dif_neg h⟩

/-- What a pop can do: on an empty stack nothing; else the top entry, `SP` one less, the array and the rest of the state as
before. -/
theorem State.pop_cases (s : State) :
    (s.SP.val = 0 ∧ s.pop = none) ∨
    (∃ h : s.SP.val - 1 < 16, 0 < s.SP.val ∧ s.pop =
      some (s.stack[s.SP.val - 1], { s with SP := ⟨s.SP.val - 1, Nat.lt_succ_of_lt h⟩ })) := by
  by_cases h : 0 < s.SP.val
  · exact .inr ⟨by have : s.SP.val < 17 := s.SP.isLt; omega, h, dif_pos h⟩
  · exact .inl ⟨by omega, dif_neg h⟩

theorem State.inBounds_iff (s : State) (len : Nat) :
    s.inBounds len = true ↔ len = 0 ∨ s.I.toNat + len ≤ 4096 := by
  exact decide_eq_true_iff

end Sys2Proof.Machine
end

