-- ==== Sys2Proof/Laws/Blit.lean ====
section
/-! SUPPORT. The sprite blitter: drawing is one XOR per set bit that lands on the screen, and the collision is a set bit on a
pixel that was on (spec R107 to R109). -/

namespace Sys2Proof.Machine

open Sys2Proof

theorem FrameBuffer.pixel_flip (fb : FrameBuffer) {c r : Nat} (hc : c < 64) (hr : r < 32) (col row : Nat) :
    (fb.flip c r).pixel col row = if col = c ∧ row = r then !fb.pixel col row else fb.pixel col row := by
  unfold FrameBuffer.pixel FrameBuffer.flip
  rw [dif_pos (show r < Config.fbHeight from hr)]
  by_cases hrow : row < Config.fbHeight
  · rw [dif_pos hrow, dif_pos hrow, Vector.getElem_set]
    by_cases h : r = row
    · subst h
      simp only [if_true, BitVec.getLsbD_xor, BitVec.getLsbD_shiftLeft, BitVec.getLsbD_one, and_true]
      by_cases hcol : col = c
      · subst hcol
        simp [hc]
      · rw [if_neg hcol]
        have hne : ¬(c ≤ col ∧ col - c = 0) := by omega
        by_cases hle : col < c
        · simp [hle]
        · have : col - c ≠ 0 := by omega
          simp [this]
    · rw [if_neg h, if_neg (fun hh => h hh.2.symm)]
  · rw [dif_neg hrow, dif_neg hrow]
    exact (if_neg (show ¬(col = c ∧ row = r) from fun hh => hrow (hh.2 ▸ hr))).symm

theorem FrameBuffer.pixel_clear (col row : Nat) : FrameBuffer.clear.pixel col row = false := by
  unfold FrameBuffer.pixel FrameBuffer.clear
  split <;> simp

/-- Two framebuffers with the same pixels on the screen are the same. -/
theorem FrameBuffer.ext_pixel {fb fb' : FrameBuffer}
    (h : ∀ col row, col < 64 → row < 32 → fb.pixel col row = fb'.pixel col row) : fb = fb' := by
  refine Vector.ext fun row hrow => ?_
  refine BitVec.eq_of_getLsbD_eq fun col hcol => ?_
  have := h col row hcol hrow
  unfold FrameBuffer.pixel at this
  rwa [dif_pos hrow, dif_pos hrow] at this

theorem FrameBuffer.pixel_of_col_ge (fb : FrameBuffer) {col : Nat} (row : Nat) (h : 64 ≤ col) :
    fb.pixel col row = false := by
  unfold FrameBuffer.pixel
  split
  · exact BitVec.getLsbD_of_ge _ _ h
  · rfl

theorem FrameBuffer.pixel_of_row_ge (fb : FrameBuffer) (col : Nat) {row : Nat} (h : 32 ≤ row) :
    fb.pixel col row = false := dif_neg (not_lt.2 h)

/-- `p` is `fb` with exactly the pixels of `S` flipped, and tells whether one of them was on. -/
def DrawnOver (fb : FrameBuffer) (S : Nat → Nat → Prop) (p : FrameBuffer × Bool) : Prop :=
  (∀ col row, p.1.pixel col row = true ↔ ¬(fb.pixel col row = true ↔ S col row)) ∧
  (p.2 = true ↔ ∃ col row, S col row ∧ fb.pixel col row = true)

theorem DrawnOver.congr {fb : FrameBuffer} {S S' : Nat → Nat → Prop} {p : FrameBuffer × Bool}
    (hS : ∀ col row, S col row ↔ S' col row) (h : DrawnOver fb S p) : DrawnOver fb S' p := by
  obtain rfl : S = S' := funext fun col => funext fun row => propext (hS col row)
  exact h

theorem drawnOver_start (fb : FrameBuffer) : DrawnOver fb (fun _ _ => False) (fb, false) := by
  simp [DrawnOver]

/-- One more pixel, not drawn before. -/
theorem DrawnOver.flip {fb : FrameBuffer} {S : Nat → Nat → Prop} {p : FrameBuffer × Bool} {c r : Nat}
    (h : DrawnOver fb S p) (hc : c < 64) (hr : r < 32) (hnew : ¬S c r) :
    DrawnOver fb (fun col row => S col row ∨ (col = c ∧ row = r)) (p.1.flip c r, p.2 || p.1.pixel c r) := by
  refine ⟨fun col row => ?_, ?_⟩
  · show (p.1.flip c r).pixel col row = true ↔ _
    rw [FrameBuffer.pixel_flip _ hc hr]
    by_cases hq : col = c ∧ row = r
    · obtain ⟨rfl, rfl⟩ := hq
      have := h.1 col row
      simp only [if_true, and_self, or_true, iff_true, Bool.not_eq_true', Bool.eq_false_iff, ne_eq]
      rw [this]
      tauto
    · rw [if_neg hq, h.1]
      simp only [hq, or_false]
  · have hcr : p.1.pixel c r = true ↔ fb.pixel c r = true := by rw [h.1]; tauto
    show (p.2 || p.1.pixel c r) = true ↔ _
    rw [Bool.or_eq_true, h.2, hcr]
    constructor
    · rintro (⟨col, row, hs, hp⟩ | hp)
      · exact ⟨col, row, .inl hs, hp⟩
      · exact ⟨c, r, .inr ⟨rfl, rfl⟩, hp⟩
    · rintro ⟨col, row, hs | ⟨rfl, rfl⟩, hp⟩
      · exact .inl ⟨col, row, hs, hp⟩
      · exact .inr hp

/-- The first `k` pixels of a sprite row. -/
theorem drawnOver_pixels {fb : FrameBuffer} {S : Nat → Nat → Prop} {p : FrameBuffer × Bool} (x0 row : Nat) (b : Byte)
    (k : Nat) (h : DrawnOver fb S p) (hrow : row < 32) (hnew : ∀ col, ¬S col row) :
    DrawnOver fb (fun c r => S c r ∨ (r = row ∧ x0 ≤ c ∧ c < x0 + k ∧ c < 64 ∧ b.getLsbD (7 - (c - x0)) = true))
      ((List.range k).foldl (drawPixel x0 row b) p) := by
  induction k with
  | zero => exact h.congr fun c r => ⟨.inl, fun hh => hh.resolve_right (by omega)⟩
  | succ k ih =>
    rw [List.range_succ, List.foldl_append, List.foldl_cons, List.foldl_nil]
    generalize (List.range k).foldl (drawPixel x0 row b) p = q at ih
    unfold drawPixel
    split
    · next hd =>
      refine (ih.flip hd.1 hrow fun hh => hh.elim (hnew _) (by omega)).congr fun c r => ?_
      constructor
      · rintro ((hh | ⟨rfl, h1, h2, h3⟩) | ⟨rfl, rfl⟩)
        · exact .inl hh
        · exact .inr ⟨rfl, h1, by omega, h3⟩
        · exact .inr ⟨rfl, by omega, by omega, hd.1, by rw [Nat.add_sub_cancel_left]; exact hd.2⟩
      · rintro (hh | ⟨rfl, h1, h2, h3, h4⟩)
        · exact .inl (.inl hh)
        · by_cases hc : c = x0 + k
          · exact .inr ⟨hc, rfl⟩
          · exact .inl (.inr ⟨rfl, h1, by omega, h3, h4⟩)
    · next hd =>
      refine ih.congr fun c r => or_congr_right ?_
      constructor
      · rintro ⟨rfl, h1, h2, h3⟩
        exact ⟨rfl, h1, by omega, h3⟩
      · rintro ⟨rfl, h1, h2, h3, h4⟩
        refine ⟨rfl, h1, ?_, h3, h4⟩
        by_contra hc
        obtain rfl : c = x0 + k := by omega
        rw [Nat.add_sub_cancel_left] at h4
        exact hd ⟨h3, h4⟩

/-- The pixels that the first `n` rows of a sprite set. -/
def SpriteSets (read : Nat → Byte) (base x0 y0 n col row : Nat) : Prop :=
  y0 ≤ row ∧ row < y0 + n ∧ row < 32 ∧ x0 ≤ col ∧ col < x0 + 8 ∧ col < 64 ∧
    (read (base + (row - y0))).getLsbD (7 - (col - x0)) = true

theorem drawnOver_rows (fb : FrameBuffer) (read : Nat → Byte) (base x0 y0 n : Nat) :
    DrawnOver fb (SpriteSets read base x0 y0 n) ((List.range n).foldl (drawRow read base x0 y0) (fb, false)) := by
  induction n with
  | zero => exact (drawnOver_start fb).congr fun col row => by simp only [SpriteSets, false_iff]; omega
  | succ n ih =>
    rw [List.range_succ, List.foldl_append, List.foldl_cons, List.foldl_nil]
    generalize (List.range n).foldl (drawRow read base x0 y0) (fb, false) = q at ih
    unfold drawRow
    split
    · next hrow =>
      refine (drawnOver_pixels x0 (y0 + n) _ 8 ih hrow fun col hh => by have := hh.2.1; omega).congr fun col row => ?_
      unfold SpriteSets
      constructor
      · rintro (⟨h1, h2, h3⟩ | ⟨rfl, h1, h2, h3, h4⟩)
        · exact ⟨h1, by omega, h3⟩
        · exact ⟨by omega, by omega, hrow, h1, h2, h3, by rwa [Nat.add_sub_cancel_left]⟩
      · rintro ⟨h1, h2, h3, h4, h5, h6, h7⟩
        by_cases hr : row = y0 + n
        · subst hr
          exact .inr ⟨rfl, h4, h5, h6, by rwa [Nat.add_sub_cancel_left] at h7⟩
        · exact .inl ⟨h1, by omega, h3, h4, h5, h6, h7⟩
    · next hrow =>
      refine ih.congr fun col row => ?_
      unfold SpriteSets
      have : ¬ y0 + n < 32 := hrow
      constructor
      · rintro ⟨h1, h2, h3⟩; exact ⟨h1, by omega, h3⟩
      · rintro ⟨h1, h2, h3, h4⟩; exact ⟨h1, by omega, h3, h4⟩

/-- Everything a blit does: the screen with the sprite's set bits flipped, and whether one of them hit a pixel that was
on. -/
theorem State.blit_drawnOver (s : State) (base x0 y0 n : Nat) :
    DrawnOver s.FB (SpriteSets s.readByte base x0 y0 n) (s.blit base x0 y0 n) :=
  drawnOver_rows s.FB s.readByte base x0 y0 n

end Sys2Proof.Machine
end

