-- ==== Sys2Proof/Laws/Encoding.lean ====
section
/-! SUPPORT. The fields of a word built by a format of the encoder (spec R63, R64), and a word rebuilt from its fields. -/

namespace Sys2Proof

/-- A field that lies in the low part of an append. -/
theorem extract_append_low {w v : Nat} (a : BitVec w) (b : BitVec v) (start len : Nat) (h : start + len ≤ v) :
    (a ++ b).extractLsb' start len = b.extractLsb' start len := by
  refine BitVec.eq_of_getLsbD_eq fun k hk => ?_
  simp only [BitVec.getLsbD_extractLsb', hk, decide_true, Bool.true_and, BitVec.getLsbD_append]
  rw [if_pos (by omega)]

/-- A field that lies in the high part of an append. -/
theorem extract_append_high {w v : Nat} (a : BitVec w) (b : BitVec v) (start len : Nat) (h : v ≤ start) :
    (a ++ b).extractLsb' start len = a.extractLsb' (start - v) len := by
  refine BitVec.eq_of_getLsbD_eq fun k hk => ?_
  simp only [BitVec.getLsbD_extractLsb', hk, decide_true, Bool.true_and, BitVec.getLsbD_append]
  rw [if_neg (by omega), show start + k - v = start - v + k by omega]

theorem extract_whole {w : Nat} (a : BitVec w) : a.extractLsb' 0 w = a := by
  refine BitVec.eq_of_getLsbD_eq fun k hk => ?_
  simp [hk]

/-- A word cut into two adjacent fields and put together again. -/
theorem extract_append_extract {w : Nat} (a : BitVec w) (start len len' : Nat) :
    a.extractLsb' (start + len) len' ++ a.extractLsb' start len = a.extractLsb' start (len' + len) := by
  refine BitVec.eq_of_getLsbD_eq fun k hk => ?_
  simp only [BitVec.getLsbD_append, BitVec.getLsbD_extractLsb', hk, decide_true, Bool.true_and]
  split
  · next h => simp [h]
  · next h =>
    rw [show start + len + (k - len) = start + k by omega]
    simp [show k - len < len' by omega]

@[simp] theorem toFin_regField (x : RegIdx) : (regField x).toFin = x := rfl

@[simp] theorem regField_toFin (n : Nibble) : regField n.toFin = n := rfl

@[simp] theorem opFamily_encNNN (f : Nibble) (nnn : Addr) : opFamily (encNNN f nnn) = f := by
  rw [opFamily, encNNN, extract_append_high _ _ _ _ (by decide)]; exact extract_whole f

@[simp] theorem opNNN_encNNN (f : Nibble) (nnn : Addr) : opNNN (encNNN f nnn) = nnn := by
  rw [opNNN, encNNN, extract_append_low _ _ _ _ (by decide)]; exact extract_whole nnn

@[simp] theorem opX_encNNN (f : Nibble) (nnn : Addr) : opX (encNNN f nnn) = addrTopReg nnn := by
  rw [opX, encNNN, extract_append_low _ _ _ _ (by decide)]; rfl

@[simp] theorem opFamily_encXNN (f : Nibble) (x : RegIdx) (nn : Byte) : opFamily (encXNN f x nn) = f := by
  rw [opFamily, encXNN, extract_append_high _ _ _ _ (by decide)]; exact extract_whole f

@[simp] theorem opX_encXNN (f : Nibble) (x : RegIdx) (nn : Byte) : opX (encXNN f x nn) = x := by
  rw [opX, encXNN, extract_append_low _ _ _ _ (by decide), extract_append_high _ _ _ _ (by decide)]
  exact congrArg BitVec.toFin (extract_whole (regField x))

@[simp] theorem opNN_encXNN (f : Nibble) (x : RegIdx) (nn : Byte) : opNN (encXNN f x nn) = nn := by
  rw [opNN, encXNN, extract_append_low _ _ _ _ (by decide), extract_append_low _ _ _ _ (by decide)]
  exact extract_whole nn

@[simp] theorem opFamily_encXYN (f : Nibble) (x y : RegIdx) (n : Nibble) : opFamily (encXYN f x y n) = f := by
  rw [opFamily, encXYN, extract_append_high _ _ _ _ (by decide)]; exact extract_whole f

@[simp] theorem opX_encXYN (f : Nibble) (x y : RegIdx) (n : Nibble) : opX (encXYN f x y n) = x := by
  rw [opX, encXYN, extract_append_low _ _ _ _ (by decide), extract_append_high _ _ _ _ (by decide)]
  exact congrArg BitVec.toFin (extract_whole (regField x))

@[simp] theorem opY_encXYN (f : Nibble) (x y : RegIdx) (n : Nibble) : opY (encXYN f x y n) = y := by
  rw [opY, encXYN, extract_append_low _ _ _ _ (by decide), extract_append_low _ _ _ _ (by decide),
    extract_append_high _ _ _ _ (by decide)]
  exact congrArg BitVec.toFin (extract_whole (regField y))

@[simp] theorem opN_encXYN (f : Nibble) (x y : RegIdx) (n : Nibble) : opN (encXYN f x y n) = n := by
  rw [opN, encXYN, extract_append_low _ _ _ _ (by decide), extract_append_low _ _ _ _ (by decide),
    extract_append_low _ _ _ _ (by decide)]
  exact extract_whole n

/-- A word is its family and its 12-bit operand. -/
theorem encNNN_fields (op : Word) : encNNN (opFamily op) (opNNN op) = op :=
  (extract_append_extract op 0 12 4).trans (extract_whole op)

/-- A word is its family, `x` and `nn`. -/
theorem encXNN_fields (op : Word) : encXNN (opFamily op) (opX op) (opNN op) = op := by
  rw [encXNN, opX, regField_toFin, opNN]
  rw [show op.extractLsb' 8 4 ++ op.extractLsb' 0 8 = op.extractLsb' 0 12 from extract_append_extract op 0 8 4]
  exact encNNN_fields op

/-- A word is its family, `x`, `y` and `n`. -/
theorem encXYN_fields (op : Word) : encXYN (opFamily op) (opX op) (opY op) (opN op) = op := by
  rw [encXYN, opX, opY, regField_toFin, regField_toFin, opN]
  rw [show op.extractLsb' 4 4 ++ op.extractLsb' 0 4 = op.extractLsb' 0 8 from extract_append_extract op 0 4 4]
  exact encXNN_fields op

/-- BXNN's register is the top nibble of its address (R63). -/
theorem addrTopReg_opNNN (op : Word) : addrTopReg (opNNN op) = opX op := by
  conv_rhs => rw [← encNNN_fields op]
  rw [opX_encNNN]

/-- The two bytes of a word, high byte first, are the word (R46). -/
theorem wordOfBytes_bytes (op : Word) : wordOfBytes (opHighByte op) (opLowByte op) = op :=
  (extract_append_extract op 0 8 8).trans (extract_whole op)

theorem toNat_wordOfBytes (hi lo : Byte) : (wordOfBytes hi lo).toNat = hi.toNat * 256 + lo.toNat := by
  rw [wordOfBytes, BitVec.toNat_append, Nat.shiftLeft_eq, Nat.mul_comm, ← Nat.two_pow_add_eq_or_of_lt lo.isLt]

/-! The words of the formats as numbers. -/

theorem toNat_encNNN (f : Nibble) (nnn : Addr) : (encNNN f nnn).toNat = f.toNat * 4096 + nnn.toNat := by
  rw [encNNN, BitVec.toNat_append, ← Nat.shiftLeft_add_eq_or_of_lt nnn.isLt, Nat.shiftLeft_eq]

theorem toNat_encXNN (f : Nibble) (x : RegIdx) (nn : Byte) :
    (encXNN f x nn).toNat = f.toNat * 4096 + x.val * 256 + nn.toNat := by
  have h : (regField x ++ nn).toNat = x.val * 256 + nn.toNat := by
    rw [BitVec.toNat_append, ← Nat.shiftLeft_add_eq_or_of_lt nn.isLt, Nat.shiftLeft_eq]; rfl
  rw [Nat.add_assoc, ← h]
  exact toNat_encNNN f (regField x ++ nn)

theorem toNat_encXYN (f : Nibble) (x y : RegIdx) (n : Nibble) :
    (encXYN f x y n).toNat = f.toNat * 4096 + x.val * 256 + y.val * 16 + n.toNat := by
  have h : (regField y ++ n).toNat = y.val * 16 + n.toNat := by
    rw [BitVec.toNat_append, ← Nat.shiftLeft_add_eq_or_of_lt n.isLt, Nat.shiftLeft_eq]; rfl
  rw [Nat.add_assoc, ← h]
  exact toNat_encXNN f x (regField y ++ n)

/-- The fields of a word as numbers. -/
theorem toNat_opFamily (op : Word) : (opFamily op).toNat = op.toNat / 4096 := by
  simp only [opFamily, BitVec.extractLsb'_toNat, Nat.shiftRight_eq_div_pow]; have := op.isLt; omega

theorem toNat_opN (op : Word) : (opN op).toNat = op.toNat % 16 := by
  simp only [opN, BitVec.extractLsb'_toNat, Nat.shiftRight_zero, Nat.reducePow]

theorem toNat_opNN (op : Word) : (opNN op).toNat = op.toNat % 256 := by
  simp only [opNN, BitVec.extractLsb'_toNat, Nat.shiftRight_zero, Nat.reducePow]

theorem toNat_opNNN (op : Word) : (opNNN op).toNat = op.toNat % 4096 := by
  simp only [opNNN, BitVec.extractLsb'_toNat, Nat.shiftRight_zero, Nat.reducePow]

end Sys2Proof
end

