-- ==== Sys2Proof/Laws/Flags.lean ====
section
/-! SUPPORT. The flags and the operand forms as numbers (spec R76, R65, R101). -/

namespace Sys2Proof.Machine

open Sys2Proof

theorem toNat_flagByte (c : Bool) : (flagByte c).toNat = if c then 1 else 0 := by cases c <;> rfl

theorem toNat_carryFlag (a b : Byte) : (carryFlag a b).toNat = if a.toNat + b.toNat > 255 then 1 else 0 := by
  rw [carryFlag, toNat_flagByte]; simp only [decide_eq_true_eq]

theorem toNat_notBorrowFlag (a b : Byte) : (notBorrowFlag a b).toNat = if a.toNat < b.toNat then 0 else 1 := by
  rw [notBorrowFlag, toNat_flagByte]; simp only [decide_eq_true_eq, ge_iff_le]; split <;> split <;> omega

theorem toNat_shiftRightFlag (a : Byte) : (shiftRightFlag a).toNat = a.toNat % 2 := by
  rw [shiftRightFlag, BitVec.toNat_and]; exact Nat.and_one_is_mod _

theorem toNat_shiftLeftFlag : ∀ a : Byte, (shiftLeftFlag a).toNat = a.toNat / 128 := by decide

theorem toNat_indexOverflowFlag (i : Word) (a : Byte) :
    (indexOverflowFlag i a).toNat = if i.toNat + a.toNat > 0xFFF then 1 else 0 := by
  rw [indexOverflowFlag, toNat_flagByte]; simp only [decide_eq_true_eq]

theorem toNat_zextAddr (nnn : Addr) : (zextAddr nnn).toNat = nnn.toNat := by
  rw [zextAddr, BitVec.toNat_setWidth]; have := nnn.isLt; omega

theorem toNat_zextByte (v : Byte) : (zextByte v).toNat = v.toNat := by
  rw [zextByte, BitVec.toNat_setWidth]; have := v.isLt; omega

theorem toNat_zextKey (k : Nibble) : (zextKey k).toNat = k.toNat := by
  rw [zextKey, BitVec.toNat_setWidth]; have := k.isLt; omega

/-- The glyph address never wraps (R101). -/
theorem toNat_glyphAddr (b : Config.Build) (v : Byte) : (glyphAddr b v).toNat = v.toNat * 5 + b.fontBase.val := by
  have := v.isLt
  have : b.fontBase.val < 433 := b.fontBase.isLt
  rw [glyphAddr, BitVec.toNat_ofNat]; omega

theorem keyInRange_iff (v : Byte) : keyInRange v = true ↔ v.toNat ≤ 0xF := decide_eq_true_iff

end Sys2Proof.Machine
end

