-- ==== Sys2Proof/Laws/PerInstr.lean ====
section
/-! SUPPORT. Facts stated for every instruction, one lemma per constructor. Family `Table`: the word of an instruction lies in its
own row of spec/opcode_table.json (spec R63, R66). -/

namespace Sys2Proof.Laws.Table

open Sys2Proof

/-- The word of `i` has the fixed bits of `i`'s row of the opcode table. -/
def Statement (i : Instr) : Prop := encode i &&& (tableRow i).1 = (tableRow i).2

theorem append_and_append {w v : Nat} (a b : BitVec w) (c d : BitVec v) :
    (a ++ c) &&& (b ++ d) = (a &&& b) ++ (c &&& d) := by
  refine BitVec.eq_of_getLsbD_eq fun k _ => ?_
  simp only [BitVec.getLsbD_and, BitVec.getLsbD_append]
  split <;> rfl

/-- Only the family is fixed: the mask 0xF000. -/
theorem and_familyMask (f : Nibble) (rest : BitVec 12) : (f ++ rest) &&& (0xF#4 ++ 0x000#12) = (f ++ 0x000#12 : Word) := by
  rw [append_and_append]
  exact congrArg₂ (· ++ ·) (BitVec.and_allOnes (x := f)) BitVec.and_zero

/-- The family and the low nibble are fixed: the mask 0xF00F. -/
theorem and_familyNibbleMask (f x y n : Nibble) :
    (f ++ (x ++ (y ++ n))) &&& (0xF#4 ++ (0x0#4 ++ (0x0#4 ++ 0xF#4))) = (f ++ (0x0#4 ++ (0x0#4 ++ n)) : Word) := by
  rw [append_and_append, append_and_append, append_and_append]
  exact congrArg₂ (· ++ ·) (BitVec.and_allOnes (x := f)) (congrArg₂ (· ++ ·) BitVec.and_zero
    (congrArg₂ (· ++ ·) BitVec.and_zero (BitVec.and_allOnes (x := n))))

/-- The family and the low byte are fixed: the mask 0xF0FF. -/
theorem and_familyByteMask (f x : Nibble) (nn : Byte) :
    (f ++ (x ++ nn)) &&& (0xF#4 ++ (0x0#4 ++ 0xFF#8)) = (f ++ (0x0#4 ++ nn) : Word) := by
  rw [append_and_append, append_and_append]
  exact congrArg₂ (· ++ ·) (BitVec.and_allOnes (x := f)) (congrArg₂ (· ++ ·) BitVec.and_zero
    (BitVec.and_allOnes (x := nn)))

theorem cls : Statement (.cls) := rfl
theorem ret : Statement (.ret) := rfl
theorem jp (nnn : Addr) : Statement (.jp nnn) := and_familyMask _ _
theorem call (nnn : Addr) : Statement (.call nnn) := and_familyMask _ _
theorem seImm (x : RegIdx) (nn : Byte) : Statement (.seImm x nn) := and_familyMask _ _
theorem sneImm (x : RegIdx) (nn : Byte) : Statement (.sneImm x nn) := and_familyMask _ _
theorem seReg (x y : RegIdx) (n : Nibble) : Statement (.seReg x y n) := and_familyMask _ _
theorem ldImm (x : RegIdx) (nn : Byte) : Statement (.ldImm x nn) := and_familyMask _ _
theorem addImm (x : RegIdx) (nn : Byte) : Statement (.addImm x nn) := and_familyMask _ _
theorem ldReg (x y : RegIdx) : Statement (.ldReg x y) := and_familyNibbleMask _ _ _ _
theorem orReg (x y : RegIdx) : Statement (.orReg x y) := and_familyNibbleMask _ _ _ _
theorem andReg (x y : RegIdx) : Statement (.andReg x y) := and_familyNibbleMask _ _ _ _
theorem xorReg (x y : RegIdx) : Statement (.xorReg x y) := and_familyNibbleMask _ _ _ _
theorem addReg (x y : RegIdx) : Statement (.addReg x y) := and_familyNibbleMask _ _ _ _
theorem subReg (x y : RegIdx) : Statement (.subReg x y) := and_familyNibbleMask _ _ _ _
theorem shr (x y : RegIdx) : Statement (.shr x y) := and_familyNibbleMask _ _ _ _
theorem subnReg (x y : RegIdx) : Statement (.subnReg x y) := and_familyNibbleMask _ _ _ _
theorem shl (x y : RegIdx) : Statement (.shl x y) := and_familyNibbleMask _ _ _ _
theorem sneReg (x y : RegIdx) (n : Nibble) : Statement (.sneReg x y n) := and_familyMask _ _
theorem ldI (nnn : Addr) : Statement (.ldI nnn) := and_familyMask _ _
theorem jpOff (x : RegIdx) (nnn : Addr) : Statement (.jpOff x nnn) := and_familyMask _ _
theorem rnd (x : RegIdx) (nn : Byte) : Statement (.rnd x nn) := and_familyMask _ _
theorem drw (x y : RegIdx) (n : Nibble) : Statement (.drw x y n) := and_familyMask _ _
theorem skp (x : RegIdx) : Statement (.skp x) := and_familyByteMask _ _ _
theorem sknp (x : RegIdx) : Statement (.sknp x) := and_familyByteMask _ _ _
theorem ldVDt (x : RegIdx) : Statement (.ldVDt x) := and_familyByteMask _ _ _
theorem ldVK (x : RegIdx) : Statement (.ldVK x) := and_familyByteMask _ _ _
theorem ldDtV (x : RegIdx) : Statement (.ldDtV x) := and_familyByteMask _ _ _
theorem ldStV (x : RegIdx) : Statement (.ldStV x) := and_familyByteMask _ _ _
theorem addI (x : RegIdx) : Statement (.addI x) := and_familyByteMask _ _ _
theorem ldF (x : RegIdx) : Statement (.ldF x) := and_familyByteMask _ _ _
theorem ldB (x : RegIdx) : Statement (.ldB x) := and_familyByteMask _ _ _
theorem stRegs (x : RegIdx) : Statement (.stRegs x) := and_familyByteMask _ _ _
theorem ldRegs (x : RegIdx) : Statement (.ldRegs x) := and_familyByteMask _ _ _

end Sys2Proof.Laws.Table
end

