-- ==== Sys2Proof/Laws/Step.lean ====
section
/-! SUPPORT. What one step can do, said once: the fetch, the halted test, and the operation the host issues (spec R40, R59,
R62). -/

namespace Sys2Proof.Machine

open Sys2Proof

theorem next_inj {s t : State} (h : (Host.Outcome.next s : Result) = .next t) : s = t := by injection h

theorem State.halted_iff (s : State) : s.halted = true ↔ s.faultCause ≠ .none := by simp [State.halted]

/-- A fetch in bounds reads the two bytes at `pc`. -/
theorem State.fetch_in_bounds (s : State) (h : s.pc.toNat + 1 ≤ 0xFFF) :
    s.fetch = some (wordOfBytes (s.readByte s.pc.toNat) (s.readByte (s.pc.toNat + 1))) := if_neg (by omega)

/-- A fetch past 0xFFE reads nothing. -/
theorem State.fetch_out_of_bounds (s : State) (h : s.pc.toNat + 1 > 0xFFF) : s.fetch = none := if_pos h

/-- A fetch depends on `pc`, the memory and the build alone. -/
theorem State.fetch_congr {s t : State} (hp : t.pc = s.pc) (hm : t.mem = s.mem) (hc : t.cfg = s.cfg) :
    t.fetch = s.fetch := by simp only [State.fetch, State.readByte, hp, hm, hc]

/-- Everything one step can answer as a next state: a `Step` (halted, or a fetch and what follows, on the state with the inputs
sampled), a `Tick`, a `Read`, a `Reset`, or an admitted `Load`. -/
theorem step_cases {s t : State} (h : step s = .next t) :
    (∃ ops n inp, (s.faultCause ≠ .none ∧ t = { s with host := ops, sampleNo := n }) ∨
      (s.faultCause = .none ∧
        fetchAndRun (({ s with host := ops, sampleNo := n } : State).sample inp) = .next t)) ∨
    (∃ ops, t = (s.withHost ops).tick) ∨ (∃ ops, t = s.withHost ops) ∨ (∃ ops, t = (s.withHost ops).resetBlock) ∨
    (∃ ops bytes, s.loadOpen = true ∧ bytes.length ≤ Config.maxProgram ∧
      t = (s.withHost ops).writeBytes Config.programBase bytes) := by
  rw [step, performNext] at h
  split at h
  · rw [runFreeStep] at h
    split at h
    · next hh => exact .inl ⟨s.host, s.sampleNo, s.inp, .inl ⟨s.halted_iff.1 hh, (next_inj h).symm⟩⟩
    · next hh => exact .inl ⟨s.host, s.sampleNo + 1, _, .inr ⟨not_not.1 (mt s.halted_iff.2 hh), h⟩⟩
  · next op rest hop =>
    cases op with
    | reset => exact .inr (.inr (.inr (.inl ⟨rest, (next_inj h).symm⟩)))
    | tick => exact .inr (.inl ⟨rest, (next_inj h).symm⟩)
    | read => exact .inr (.inr (.inl ⟨rest, (next_inj h).symm⟩))
    | load bytes =>
      simp only [perform, hostLoad] at h
      split at h
      · cases h
      · next ho =>
        split at h
        · cases h
        · next hl =>
          exact .inr (.inr (.inr (.inr ⟨rest, bytes, by simpa using ho, Nat.le_of_not_lt hl, (next_inj h).symm⟩)))
    | step inp =>
      simp only [perform, runStep] at h
      split at h
      · next hh => exact .inl ⟨rest, s.sampleNo, inp, .inl ⟨s.halted_iff.1 hh, (next_inj h).symm⟩⟩
      · next hh => exact .inl ⟨rest, s.sampleNo, inp, .inr ⟨not_not.1 (mt s.halted_iff.2 hh), h⟩⟩

/-- Everything fetch, decode and execute can answer: the fetch fault, the decoded instruction's meaning, a decode
error. -/
theorem fetchAndRun_cases {s t : State} (h : fetchAndRun s = .next t) :
    (s.pc.toNat + 1 > 0xFFF ∧ t = s.raiseFault .fetchOutOfBounds 0) ∨
    (∃ op, s.fetch = some op ∧
      ((∃ i, decode op = some i ∧ exec i s = .next t) ∨ (decode op = none ∧ t = s.decodeError op))) := by
  rw [fetchAndRun] at h
  split at h
  · next hf =>
    refine .inl ⟨?_, (next_inj h).symm⟩
    by_contra hc
    rw [s.fetch_in_bounds (by omega)] at hf
    cases hf
  · next op hf =>
    split at h
    · next i hd => exact .inr ⟨op, hf, .inl ⟨i, hd, h⟩⟩
    · next hd => exact .inr ⟨op, hf, .inr ⟨hd, (next_inj h).symm⟩⟩

end Sys2Proof.Machine
end

