-- ==== Sys2Proof/Tests/Slice0.lean ====
section
/-! SUPPORT. The model's own tests. Expected results come from the spec: the words from its encoding tables (30_encoding R63,
R67 to R70), the results from its test vectors (95_test_vectors, named T<n> and L1.<n>). After them, for every statement with
hypotheses, a state and operands that meet them. -/

namespace Sys2Proof.Tests

open Sys2Proof Sys2Proof.Machine

/-! ### Well-formedness: the one check, that BXNN's register is the top nibble of its address -/

theorem test_wellFormed_jpOff : WellFormed (.jpOff 2 0x21F) = true := by decide
theorem test_wellFormed_refuses_jpOff : WellFormed (.jpOff 3 0x21F) = false := by decide

/-! ### Decoding: words written out bit by bit, one per instruction -/

theorem test_decode_cls : decode 0b0000000011100000 = some .cls := by decide
theorem test_decode_ret : decode 0b0000000011101110 = some .ret := by decide
theorem test_decode_jp : decode 0b0001101010111100 = some (.jp 0xABC) := by decide
theorem test_decode_call : decode 0b0010001101000101 = some (.call 0x345) := by decide
theorem test_decode_seImm : decode 0b0011000101000010 = some (.seImm 1 0x42) := by decide
theorem test_decode_sneImm : decode 0b0100111010010110 = some (.sneImm 14 0x96) := by decide
theorem test_decode_seReg : decode 0b0101000100100011 = some (.seReg 1 2 3) := by decide
theorem test_decode_ldImm : decode 0b0110101001000010 = some (.ldImm 10 0x42) := by decide
theorem test_decode_addImm : decode 0b0111001100100000 = some (.addImm 3 0x20) := by decide
theorem test_decode_ldReg : decode 0b1000000100100000 = some (.ldReg 1 2) := by decide
theorem test_decode_orReg : decode 0b1000001101000001 = some (.orReg 3 4) := by decide
theorem test_decode_andReg : decode 0b1000010101100010 = some (.andReg 5 6) := by decide
theorem test_decode_xorReg : decode 0b1000011110000011 = some (.xorReg 7 8) := by decide
theorem test_decode_addReg : decode 0b1000100110100100 = some (.addReg 9 10) := by decide
theorem test_decode_subReg : decode 0b1000101111000101 = some (.subReg 11 12) := by decide
theorem test_decode_shr : decode 0b1000110111100110 = some (.shr 13 14) := by decide
theorem test_decode_subnReg : decode 0b1000111100000111 = some (.subnReg 15 0) := by decide
theorem test_decode_shl : decode 0b1000000100101110 = some (.shl 1 2) := by decide
theorem test_decode_sneReg : decode 0b1001010001010110 = some (.sneReg 4 5 6) := by decide
theorem test_decode_ldI : decode 0b1010001100000001 = some (.ldI 0x301) := by decide
theorem test_decode_jpOff : decode 0b1011001000011111 = some (.jpOff 2 0x21F) := by decide
theorem test_decode_rnd : decode 0b1100001100001111 = some (.rnd 3 0x0F) := by decide
theorem test_decode_drw : decode 0b1101000100101111 = some (.drw 1 2 15) := by decide
theorem test_decode_skp : decode 0b1110001110011110 = some (.skp 3) := by decide
theorem test_decode_sknp : decode 0b1110010010100001 = some (.sknp 4) := by decide
theorem test_decode_ldVDt : decode 0b1111010100000111 = some (.ldVDt 5) := by decide
theorem test_decode_ldVK : decode 0b1111011000001010 = some (.ldVK 6) := by decide
theorem test_decode_ldDtV : decode 0b1111011100010101 = some (.ldDtV 7) := by decide
theorem test_decode_ldStV : decode 0b1111100000011000 = some (.ldStV 8) := by decide
theorem test_decode_addI : decode 0b1111100100011110 = some (.addI 9) := by decide
theorem test_decode_ldF : decode 0b1111101000101001 = some (.ldF 10) := by decide
theorem test_decode_ldB : decode 0b1111101100110011 = some (.ldB 11) := by decide
theorem test_decode_stRegs : decode 0b1111110001010101 = some (.stRegs 12) := by decide
theorem test_decode_ldRegs : decode 0b1111110101100101 = some (.ldRegs 13) := by decide

/-- The decode errors of T6, T8, T9, T10, T11. -/
theorem test_decode_errors : [0x0123, 0x8128, 0x800F, 0xE100, 0xF000].map decode = [none, none, none, none, none] := by decide

/-- The table's bit numbering: an instruction is one word, so bits above it are dropped. -/
theorem test_decodeTableWord : decodeTableWord 16 0x2ABC = some (.call 0xABC) := by decide

/-! ### One step on a small state -/

/-- The word `w` stored at `pc` of `f State.reset` and run. -/
def runWord (f : State → State) (w : Nat) : Result := step ((f State.reset).withFetchWord 16 w)

/-- `o` is a next state with the property `p`. -/
def nextHolds (o : Result) (p : State → Bool) : Bool :=
  match o with
  | .next t => p t
  | .fault _ | .refused _ => false

/-- The registers of `s`, some of them set. -/
def withV (l : List (RegIdx × Byte)) (s : State) : State := l.foldl (fun t p => t.setV p.1 p.2) s

/-- Three things a fault fixes: its code (R118), `fault_op`, and `pc` still at the instruction (R119). -/
def faultedAt (code : Nat) (op pc : Word) (t : State) : Bool :=
  causeCode t.faultCause == BitVec.ofNat 8 code && t.faultOp == op && t.faultPc == pc && t.pc == pc

/-! Fetch and decode (T2, T3, T4, T5, T6, T12, T13) -/

/-- T2. -/
theorem test_fetch_top : nextHolds (runWord (fun s => { s with pc := 0xFFE }) 0x6001)
    (fun t => t.getV 0 == 1 && t.pc == 0x1000) = true := by decide
/-- T3 and T4. -/
theorem test_fetch_outOfBounds : nextHolds (step { State.reset with pc := 0xFFF }) (faultedAt 1 0 0xFFF) = true ∧
    nextHolds (step { State.reset with pc := 0x1000 }) (faultedAt 1 0 0x1000) = true := by decide
/-- T5. -/
theorem test_fetch_odd : nextHolds (runWord (fun s => { s with pc := 0x201 }) 0x6123)
    (fun t => t.getV 1 == 0x23 && t.pc == 0x203) = true := by decide
/-- T6. -/
theorem test_decode_error_step : nextHolds (runWord (id) 0x0123)
    (fun t => t.diag == [{ ipc := 0x200, op := 0x0123 }] && t.pc == 0x202 && t.faultCause == .none) = true := by decide
/-- T12: halted, a step changes nothing. -/
theorem test_halted_step : nextHolds (step { State.reset with faultCause := .stackUnderflow })
    (fun t => t == { State.reset with faultCause := .stackUnderflow }) = true := by decide
/-- T13. -/
theorem test_step_clears_awaiting : nextHolds (runWord (fun s => { s with awaitingKey := true }) 0x6001)
    (fun t => t.getV 0 == 1 && t.pc == 0x202 && !t.awaitingKey) = true := by decide
/-- T7, and the free `Step` of an empty list: the word 0x0000 of `State.reset`. -/
theorem test_free_step_decode_error : nextHolds (step State.reset)
    (fun t => t.diag == [{ ipc := 0x200, op := 0x0000 }] && t.pc == 0x202) = true := by decide

/-! Arithmetic and logic -/

/-- T20, L1.1. -/
theorem test_ldImm : nextHolds (runWord (id) 0x6A42)
    (fun t => t.getV 10 == 0x42 && t.pc == 0x202) = true := by decide
/-- T23. -/
theorem test_addImm : nextHolds (runWord (withV [(1, 0x02), (15, 9)]) 0x71FF)
    (fun t => t.getV 1 == 0x01 && t.getV 15 == 9) = true := by decide
/-- T24. -/
theorem test_ldReg : nextHolds (runWord (withV [(2, 0x7E)]) 0x8120)
    (fun t => t.getV 1 == 0x7E) = true := by decide
/-- T25. -/
theorem test_orReg : nextHolds (runWord (withV [(1, 0x0F), (2, 0xF0), (15, 9)]) 0x8121)
    (fun t => t.getV 1 == 0xFF && t.getV 15 == 9) = true := by decide
/-- T26. -/
theorem test_andReg : nextHolds (runWord (withV [(1, 0x3C), (2, 0x0F)]) 0x8122)
    (fun t => t.getV 1 == 0x0C) = true := by decide
/-- T27. -/
theorem test_xorReg : nextHolds (runWord (withV [(1, 0xFF), (2, 0x0F)]) 0x8123)
    (fun t => t.getV 1 == 0xF0) = true := by decide
/-- T29, L1.2. -/
theorem test_addReg : nextHolds (runWord (withV [(1, 0xF0), (2, 0x20)]) 0x8124)
    (fun t => t.getV 1 == 0x10 && t.getV 15 == 1) = true := by decide
/-- T31. -/
theorem test_addReg_vf : nextHolds (runWord (withV [(15, 0xFF), (1, 0x01)]) 0x8F14)
    (fun t => t.getV 15 == 1) = true := by decide
/-- T33, L1.3. -/
theorem test_subReg : nextHolds (runWord (withV [(1, 0x10), (2, 0x20)]) 0x8125)
    (fun t => t.getV 1 == 0xF0 && t.getV 15 == 0) = true := by decide
/-- T34. -/
theorem test_subReg_equal : nextHolds (runWord (withV [(1, 0x07), (2, 0x07)]) 0x8125)
    (fun t => t.getV 1 == 0 && t.getV 15 == 1) = true := by decide
/-- T38. -/
theorem test_shr : nextHolds (runWord (withV [(1, 0x04), (2, 0xFF)]) 0x8126)
    (fun t => t.getV 1 == 0x02 && t.getV 15 == 0 && t.getV 2 == 0xFF) = true := by decide
/-- T39. -/
theorem test_shr_vf : nextHolds (runWord (withV [(15, 0x03)]) 0x8F06)
    (fun t => t.getV 15 == 0) = true := by decide
/-- T41. -/
theorem test_subnReg : nextHolds (runWord (withV [(1, 0x20), (2, 0x10)]) 0x8127)
    (fun t => t.getV 1 == 0xF0 && t.getV 15 == 0) = true := by decide
/-- T42. -/
theorem test_subnReg_equal : nextHolds (runWord (withV [(1, 0x07), (2, 0x07)]) 0x8127)
    (fun t => t.getV 1 == 0 && t.getV 15 == 1) = true := by decide
/-- T44. -/
theorem test_shl : nextHolds (runWord (withV [(1, 0x81)]) 0x810E)
    (fun t => t.getV 1 == 0x02 && t.getV 15 == 1) = true := by decide
/-- T46. -/
theorem test_shl_vf : nextHolds (runWord (withV [(15, 0x80)]) 0x8F0E)
    (fun t => t.getV 15 == 2) = true := by decide
/-- T49. -/
theorem test_rnd : nextHolds (runWord (fun s => { s with inp := { s.inp with rand := 0xAB } }) 0xC30F)
    (fun t => t.getV 3 == 0x0B) = true := by decide

/-! Control flow -/

/-- T60. -/
theorem test_jp : nextHolds (runWord (id) 0x1234)
    (fun t => t.pc == 0x234) = true := by decide
/-- T62. -/
theorem test_call : nextHolds (runWord (id) 0x2300)
    (fun t => t.pc == 0x300 && t.SP == 1 && t.stack[0] == 0x202) = true := by decide
/-- T63. -/
theorem test_call_overflow : nextHolds (runWord (fun s => { s with SP := 16, stack := Vector.replicate 16 0x202 }) 0x2300)
    (fun t => faultedAt 4 0x2300 0x200 t && t.SP == 16) = true := by decide
/-- T64. -/
theorem test_ret : nextHolds (runWord (fun s => { s with SP := 1, stack := s.stack.set 0 0x206 }) 0x00EE)
    (fun t => t.pc == 0x206 && t.SP == 0 && t.stack[0] == 0x206) = true := by decide
/-- T65. -/
theorem test_ret_underflow : nextHolds (runWord (id) 0x00EE)
    (fun t => faultedAt 3 0x00EE 0x200 t) = true := by decide
/-- T66. -/
theorem test_seImm_taken : nextHolds (runWord (withV [(1, 0x42)]) 0x3142)
    (fun t => t.pc == 0x204) = true := by decide
/-- T67. -/
theorem test_seImm_not : nextHolds (runWord (withV [(1, 0x42)]) 0x3143)
    (fun t => t.pc == 0x202) = true := by decide
/-- T69. -/
theorem test_sneImm_taken : nextHolds (runWord (withV [(1, 0x42)]) 0x4100)
    (fun t => t.pc == 0x204) = true := by decide
/-- L1.9. -/
theorem test_sneImm_not : nextHolds (runWord (withV [(1, 0x42)]) 0x4142)
    (fun t => t.pc == 0x202) = true := by decide
/-- T70. -/
theorem test_seReg_taken : nextHolds (runWord (withV [(1, 7), (2, 7)]) 0x5121)
    (fun t => t.pc == 0x204) = true := by decide
/-- L1.9. -/
theorem test_seReg_not : nextHolds (runWord (withV [(1, 0x42), (3, 7)]) 0x5130)
    (fun t => t.pc == 0x202) = true := by decide
/-- T72. -/
theorem test_sneReg_taken : nextHolds (runWord (withV [(1, 7), (2, 8)]) 0x9120)
    (fun t => t.pc == 0x204) = true := by decide
/-- T73. -/
theorem test_sneReg_not : nextHolds (runWord (withV [(1, 7), (2, 7)]) 0x9120)
    (fun t => t.pc == 0x202) = true := by decide
/-- T74, T76. -/
theorem test_jpOff : nextHolds (runWord (withV [(0, 9), (2, 5)]) 0xB210)
    (fun t => t.pc == 0x215) = true := by decide
/-- T75. -/
theorem test_jpOff_past : nextHolds (runWord (withV [(15, 0x20)]) 0xBFF0)
    (fun t => t.pc == 0x1010) = true := by decide

/-! Index register and memory -/

/-- T80. -/
theorem test_ldI : nextHolds (runWord (id) 0xA300)
    (fun t => t.I == 0x300) = true := by decide
/-- T82. -/
theorem test_addI_wraps : nextHolds (runWord (fun s => withV [(0, 2), (15, 9)] { s with I := 0xFFFF }) 0xF01E)
    (fun t => t.I == 0x0001 && t.getV 15 == 9) = true := by decide
/-- T83. -/
theorem test_addI_quirk : nextHolds (runWord (fun s => withV [(0, 2)] { s with I := 0xFFE, cfg := { s.cfg with quirkFx1eVf := true } }) 0xF01E)
    (fun t => t.I == 0x1000 && t.getV 15 == 1) = true := by decide
/-- T86. -/
theorem test_ldF : nextHolds (runWord (withV [(0, 0xFF)]) 0xF029)
    (fun t => t.I == 0x54B) = true := by decide
/-- T85. -/
theorem test_ldF_glyph : nextHolds (runWord (withV [(0, 0x0A)]) 0xF029)
    (fun t => t.I == 0x082) = true := by decide
/-- T89. -/
theorem test_ldB : nextHolds (runWord (fun s => withV [(0, 123)] { s with I := 0xFFD }) 0xF033)
    (fun t => (List.range 3).map (fun k => t.readByte (0xFFD + k)) == [1, 2, 3]) = true := by decide
/-- T97. -/
theorem test_ldB_fault : nextHolds (runWord (fun s => withV [(0, 5)] { s with I := 0xFFFE }) 0xF033)
    (fun t => faultedAt 2 0xF033 0x200 t && t.readByte 0 == 0 && t.readByte 0xFFF == 0) = true := by decide
/-- T91. -/
theorem test_stRegs : nextHolds (runWord (fun s => withV [(0, 1), (1, 2), (2, 3), (3, 4)] { s with I := 0x300 }) 0xF255)
    (fun t => (List.range 4).map (fun k => t.readByte (0x300 + k)) == [1, 2, 3, 0] && t.I == 0x300) = true := by decide
/-- T94. -/
theorem test_stRegs_fault : nextHolds (runWord (fun s => withV [(0, 1), (1, 2)] { s with I := 0xFFF }) 0xF155)
    (fun t => faultedAt 2 0xF155 0x200 t && t.readByte 0xFFF == 0) = true := by decide
/-- T95. -/
theorem test_ldRegs : nextHolds (runWord (fun s => (({ s with I := 0x300 }).writeBytes 0x300 [0xAA]).writeBytes 0x30F [0x77]) 0xFF65)
    (fun t => t.getV 0 == 0xAA && t.getV 1 == 0 && t.getV 15 == 0x77 && t.I == 0x300) = true := by decide
/-- R45, R104. -/
theorem test_ldRegs_fault : nextHolds (runWord (fun s => withV [(0, 5)] { s with I := 0xFFF }) 0xF165)
    (fun t => faultedAt 2 0xF165 0x200 t && t.getV 0 == 5) = true := by decide

/-! Display -/

/-- T100. -/
theorem test_cls : nextHolds (runWord (fun s => withV [(15, 9)] { s with FB := Vector.replicate 32 0xFF }) 0x00E0)
    (fun t => t.FB == Vector.replicate 32 0 && t.getV 15 == 9) = true := by decide
/-- T104. -/
theorem test_drw_clips : nextHolds (runWord (fun s => withV [(0, 62)] (({ s with I := 0x300 }).writeBytes 0x300 [0xFF])) 0xD011)
    (fun t => FrameBuffer.pixel t.FB 61 0 == false && FrameBuffer.pixel t.FB 62 0 && FrameBuffer.pixel t.FB 63 0 &&
      FrameBuffer.pixel t.FB 0 0 == false && t.getV 15 == 0) = true := by decide
/-- T107. -/
theorem test_drw_collides : nextHolds (runWord (fun s => ({ s with I := 0x300, FB := FrameBuffer.flip s.FB 1 0 }).writeBytes 0x300 [0xC0]) 0xD011)
    (fun t => FrameBuffer.pixel t.FB 0 0 && FrameBuffer.pixel t.FB 1 0 == false && t.getV 15 == 1) = true := by decide

/-! Keys and timers -/

/-- T110. -/
theorem test_skp_down : nextHolds (runWord (fun s => withV [(1, 5)] { s with inp := { s.inp with keys := 0x0020 } }) 0xE19E)
    (fun t => t.pc == 0x204) = true := by decide
/-- T114. -/
theorem test_skp_fault : nextHolds (runWord (withV [(1, 0x10)]) 0xE19E)
    (fun t => faultedAt 5 0xE19E 0x200 t) = true := by decide
/-- T112. -/
theorem test_sknp_up : nextHolds (runWord (withV [(1, 5)]) 0xE1A1)
    (fun t => t.pc == 0x204) = true := by decide
/-- T113. -/
theorem test_sknp_down : nextHolds (runWord (fun s => withV [(1, 5)] { s with inp := { s.inp with keys := 0x0020 } }) 0xE1A1)
    (fun t => t.pc == 0x202) = true := by decide
/-- T115. -/
theorem test_ldVDt : nextHolds (runWord (fun s => { s with DT := 0x3C }) 0xF507)
    (fun t => t.getV 5 == 0x3C) = true := by decide
/-- T116. -/
theorem test_ldDtV : nextHolds (runWord (withV [(5, 0x3C)]) 0xF515)
    (fun t => t.DT == 0x3C) = true := by decide
/-- T117. -/
theorem test_ldStV : nextHolds (runWord (withV [(5, 0x10)]) 0xF518)
    (fun t => t.ST == 0x10) = true := by decide
/-- T118. -/
theorem test_ldVK_waits : nextHolds (runWord (fun s => { s with pc := 0x300 }) 0xF30A)
    (fun t => t.pc == 0x300 && t.awaitingKey) = true := by decide
/-- T119. -/
theorem test_ldVK_key : nextHolds (runWord (fun s => { s with pc := 0x300, inp := { s.inp with keyEvent := some 0x7 } }) 0xF30A)
    (fun t => t.getV 3 == 7 && t.pc == 0x302 && !t.awaitingKey) = true := by decide

/-! The operations of the host -/

/-- T120, T121. -/
theorem test_tick : nextHolds (step { State.reset with DT := 2, host := [.tick] }) (fun t => t.DT == 1 && t.ST == 0) = true ∧
    nextHolds (step { State.reset with ST := 1, host := [.tick] }) (fun t => t.DT == 0 && t.ST == 0) = true := by decide
/-- T123. -/
theorem test_tick_halted : nextHolds (step { State.reset with DT := 5, faultCause := .keyOutOfRange, host := [.tick] })
    (fun t => t.DT == 4 && t.faultCause == .keyOutOfRange) = true := by decide
/-- T130. -/
theorem test_reset_operation :
    let s : State := { State.reset with pc := 0x321, SP := 2, mem := [(0x300, 9)], faultCause := .stackOverflow }
    nextHolds (step { withV [(3, 7)] s with host := [.reset] }) (fun t => t == State.reset) = true := by decide
/-- T131. -/
theorem test_load : nextHolds (step { State.reset with host := [.load [0x12, 0x00]] })
    (fun t => t.readByte 0x200 == 0x12 && t == { State.reset with mem := t.mem }) = true := by decide
/-- R135: no `Load` after a `Step`. -/
theorem test_load_after_step : step { State.reset with loadOpen := false, host := [.load [0x12]] } =
    .refused .loadNotAdmitted := by rfl

/-! ### Witnesses: for each statement with hypotheses, a state and operands that meet them (each clause at its boundary) -/

/-- A halted block. -/
def haltedState : State := { State.reset with faultCause := .memoryOutOfBounds }
/-- A jump to itself at 0x200, the host about to step. -/
def loopState : State :=
  { (State.reset.writeBytes 0x200 [0x12, 0x00]) with host := [.step State.reset.inp] }

theorem witness_DecodeOfEncode : WellFormed (.jpOff 15 0xFFF) = true ∧ WellFormed (.drw 15 15 15) = true := by decide
theorem witness_EncodeOfDecode : decode 0xBFFF = some (.jpOff 15 0xFFF) := by decide
theorem witness_DecodeFollowsOpcodeMap_fields : (1 : RegIdx).val = (0x8126 : Word).toNat / 256 % 16 ∧
    (2 : RegIdx).val = (0x8126 : Word).toNat / 16 % 16 ∧ (6 : Nibble).toNat = (0x8126 : Word).toNat % 16 ∧
    (0x26 : Byte).toNat = (0x8126 : Word).toNat % 256 ∧ (0x126 : Addr).toNat = (0x8126 : Word).toNat % 4096 := by decide
theorem witness_DecodeFollowsOpcodeMap_highest : (15 : RegIdx).val = (0xFFFF : Word).toNat / 256 % 16 ∧
    (15 : RegIdx).val = (0xFFFF : Word).toNat / 16 % 16 ∧ (15 : Nibble).toNat = (0xFFFF : Word).toNat % 16 ∧
    (0xFF : Byte).toNat = (0xFFFF : Word).toNat % 256 ∧ (0xFFF : Addr).toNat = (0xFFFF : Word).toNat % 4096 := by decide
theorem witness_ByteDecoderConsumesTwo : decodeBytes [0x00, 0xEE, 0x12] = .ok (.ret, [0x12]) := by rfl
theorem witness_ResetOperationResets : ({ haltedState with host := [.reset] } : State).host = .reset :: [] := rfl
/-- A program that just fits: 3584 bytes. -/
theorem witness_LoadPlacesOrIsRefused_fits :
    let s : State := { State.reset with host := [.load (List.replicate 3584 0xFF)] }
    s.host = .load (List.replicate 3584 0xFF) :: [] ∧ s.loadOpen = true ∧ (List.replicate 3584 (0xFF : Byte)).length ≤ 3584 :=
  ⟨rfl, rfl, (List.length_replicate ..).le⟩
/-- One byte too many: 3585 bytes. -/
theorem witness_LoadPlacesOrIsRefused_tooLarge :
    let s : State := { State.reset with host := [.load (List.replicate 3585 0xFF)] }
    s.host = .load (List.replicate 3585 0xFF) :: [] ∧ s.loadOpen = true ∧ (List.replicate 3585 (0xFF : Byte)).length > 3584 :=
  ⟨rfl, rfl, by rw [List.length_replicate]; omega⟩
theorem witness_LoadPlacesOrIsRefused_closed : 
    let s : State := { State.reset with loadOpen := false, host := [.load []] }
    s.host = .load [] :: [] ∧ s.loadOpen = false := ⟨rfl, rfl⟩
theorem witness_StepClosesLoad : ∃ t, loopState.faultCause = .none ∧
    (loopState.host = [] ∨ ∃ inp rest, loopState.host = .step inp :: rest) ∧ step loopState = .next t :=
  ⟨_, rfl, .inr ⟨_, _, rfl⟩, rfl⟩
/-- The free `Step` of an empty list. -/
theorem witness_StepClosesLoad_free : ∃ t, State.reset.faultCause = .none ∧
    (State.reset.host = [] ∨ ∃ inp rest, State.reset.host = .step inp :: rest) ∧ step State.reset = .next t :=
  ⟨_, rfl, .inl rfl, rfl⟩
theorem witness_TickCountsDown : ({ State.reset with DT := 1, host := [.tick] } : State).host = .tick :: [] := rfl
theorem witness_ReadChangesNothing : ({ State.reset with host := [.read] } : State).host = .read :: [] := rfl
/-- The last place a fetch can start, 0xFFE, with the host's `Step` and without. -/
theorem witness_StepRunsDecodedInstruction :
    let s : State := { (State.reset.writeBytes 0xFFE [0x60, 0x01]) with pc := 0xFFE }
    s.faultCause = .none ∧ s.pc.toNat + 1 ≤ 0xFFF ∧
    (0x6001 : Word).toNat = (s.readByte s.pc.toNat).toNat * 256 + (s.readByte (s.pc.toNat + 1)).toNat ∧
    decode 0x6001 = some (.ldImm 0 1) ∧ s.host = [] ∧
    ({ s with host := [.step s.inp] } : State).host = .step s.inp :: [] := by decide
/-- Both sides of the bound, 0xFFE and 0xFFF; past it with the host's `Step` and without. -/
theorem witness_FetchBounds :
    ({ State.reset with pc := 0xFFE } : State).pc.toNat + 1 ≤ 0xFFF ∧
    (let s : State := { State.reset with pc := 0xFFF, host := [.step State.reset.inp] }
     s.pc.toNat + 1 > 0xFFF ∧ s.faultCause = .none ∧ s.host = .step State.reset.inp :: []) ∧
    (let s : State := { State.reset with pc := 0xFFF }
     s.pc.toNat + 1 > 0xFFF ∧ s.faultCause = .none ∧ s.host = []) := by decide
/-- The word 0x0000 of the state after reset, with the host's `Step` and without. -/
theorem witness_DecodeErrorIsNoOp :
    (let s : State := { State.reset with host := [.step State.reset.inp] }
     s.faultCause = .none ∧ s.fetch = some 0x0000 ∧ decode 0x0000 = none ∧ s.host = .step State.reset.inp :: []) ∧
    State.reset.faultCause = .none ∧ State.reset.fetch = some 0x0000 ∧ State.reset.host = [] := by decide
theorem witness_HaltedUntilReset_free : haltedState.faultCause ≠ .none ∧ haltedState.host = [] := by decide
theorem witness_HaltedUntilReset_step :
    let s : State := { haltedState with host := [.step haltedState.inp] }
    s.faultCause ≠ .none ∧ s.host = .step haltedState.inp :: [] := by decide
theorem witness_HaltedUntilReset_other :
    let s : State := { haltedState with DT := 1, host := [.tick, .reset] }
    ∃ t, s.faultCause ≠ .none ∧ step s = .next t ∧ ∀ rest, s.host ≠ .reset :: rest :=
  ⟨_, by decide, rfl, fun _ h => by cases h⟩
theorem witness_EndedStaysEnded : Ended loopState ∧ loopState.host = .step State.reset.inp :: [] ∧
    Ended { loopState with host := [] } ∧ ({ loopState with host := [] } : State).host = [] := by
  unfold Ended; decide
/-- The flag instructions with `x` other than 15 and with `x` = 15: 8XY4, 8XY5, 8XY7 (one clause), 8XY6, 8XYE (two). -/
theorem witness_flag_instructions : (14 : RegIdx) ≠ VF ∧ (15 : RegIdx) = VF := by decide
/-- `SP` at 1 and at 16 pops; at 0 it faults. -/
theorem witness_ReturnResult : ({ State.reset with SP := 1 } : State).SP.val ≠ 0 ∧
    ({ State.reset with SP := 16 } : State).SP.val ≠ 0 ∧ State.reset.SP.val = 0 := by decide
/-- `SP` at 0 and at 15 pushes; at 16 it faults. -/
theorem witness_CallResult : State.reset.SP.val ≠ 16 ∧ ({ State.reset with SP := 15 } : State).SP.val ≠ 16 ∧
    ({ State.reset with SP := 16 } : State).SP.val = 16 := by decide
theorem witness_CallThenReturn :
    ∃ t, ({ State.reset with SP := 15 } : State).SP.val ≠ 16 ∧ exec (.call 0x300) { State.reset with SP := 15 } = .next t ∧
      ({ t with I := 7 } : State).stack = t.stack ∧ ({ t with I := 7 } : State).SP = t.SP :=
  ⟨_, by decide, rfl, rfl, rfl⟩
theorem witness_AddToIndexResult :
    ({ State.reset with cfg := { State.reset.cfg with quirkFx1eVf := true } } : State).cfg.quirkFx1eVf = true := rfl
/-- The last `I` that fits three bytes, and the first that does not. -/
theorem witness_BcdResult : ({ State.reset with I := 0xFFD } : State).I.toNat + 2 ≤ 0xFFF ∧
    ({ State.reset with I := 0xFFE } : State).I.toNat + 2 > 0xFFF := by decide
/-- FX55 and FX65 at `I` = 0xFFF: V0 alone fits, V0 and V1 do not. -/
theorem witness_RegisterDumpResult_RegisterLoadResult :
    ({ State.reset with I := 0xFFF } : State).I.toNat + (0 : RegIdx).val ≤ 0xFFF ∧
    ({ State.reset with I := 0xFFF } : State).I.toNat + (1 : RegIdx).val > 0xFFF := by decide
theorem witness_DumpThenLoadRestores :
    let s : State := { State.reset with I := 0xFF0 }
    ∃ t, s.I.toNat + (15 : RegIdx).val ≤ 0xFFF ∧ exec (.stRegs 15) s = .next t ∧
      ({ t with DT := 3 } : State).I = t.I ∧ ∀ a, ({ t with DT := 3 } : State).readByte a = t.readByte a :=
  ⟨_, by decide, rfl, rfl, fun _ => rfl⟩
theorem witness_StoredBytesAreFetched :
    let s : State := { State.reset with I := 0xFF0 }
    ∃ t, s.I.toNat + (15 : RegIdx).val ≤ 0xFFF ∧ exec (.stRegs 15) s = .next t ∧
      (∀ a, ({ t with pc := 0xFFE } : State).readByte a = t.readByte a) ∧ (14 : RegIdx).val + 1 ≤ (15 : RegIdx).val ∧
      ({ t with pc := 0xFFE } : State).pc.toNat = s.I.toNat + (14 : RegIdx).val :=
  ⟨_, by decide, rfl, fun _ => rfl, by decide, by decide⟩
/-- The rows fit (one row at 0xFFF, no row anywhere), and one row too many. -/
theorem witness_DrawSpriteResult :
    (let s : State := { State.reset with I := 0xFFF }
     ¬(1 ≤ (1 : Nibble).toNat ∧ s.I.toNat + ((1 : Nibble).toNat - 1) > 0xFFF) ∧
     (1 ≤ (2 : Nibble).toNat ∧ s.I.toNat + ((2 : Nibble).toNat - 1) > 0xFFF)) ∧
    (let s : State := { State.reset with I := 0xFFFF }
     ¬(1 ≤ (0 : Nibble).toNat ∧ s.I.toNat + ((0 : Nibble).toNat - 1) > 0xFFF)) := by decide
/-- The collision clause: the corner pixel (63, 31) was on and is turned off. -/
theorem witness_DrawSpriteResult_collision :
    let s : State := withV [(1, 63), (2, 31)]
      ({ State.reset with I := 0x300, FB := FrameBuffer.flip State.reset.FB 63 31 }.writeBytes 0x300 [0x80])
    ∃ t, exec (.drw 1 2 1) s = .next t ∧ ∃ col row, col < 64 ∧ row < 32 ∧ FrameBuffer.pixel s.FB col row = true ∧
      FrameBuffer.pixel t.FB col row = false :=
  ⟨_, rfl, 63, 31, by decide, by decide, by decide, by decide⟩
/-- The clause without a collision: on an empty screen no pixel was on. -/
theorem witness_DrawSpriteResult_noCollision :
    ∃ t, exec (.drw 1 2 1) State.reset = .next t ∧ ∀ col row, col < 64 → row < 32 →
      FrameBuffer.pixel State.reset.FB col row = true → FrameBuffer.pixel t.FB col row = true :=
  ⟨_, rfl, fun col row _ hr h => by simp [FrameBuffer.pixel, State.reset, State.resetOf] at h⟩
/-- A set bit of the sprite on a pixel that was off. -/
theorem witness_DrawTwiceRestores :
    let s : State := { State.reset with I := 0x300 }.writeBytes 0x300 [0xF0]
    ∃ t, (0 : RegIdx) ≠ VF ∧ (14 : RegIdx) ≠ VF ∧ faultOf (.drw 0 14 1) s = .none ∧ exec (.drw 0 14 1) s = .next t ∧
      FrameBuffer.pixel s.FB 0 0 = false ∧
      spriteBit s ((s.getV 0).toNat % 64) ((s.getV 14).toNat % 32) (1 : Nibble).toNat 0 0 = true :=
  ⟨_, by decide, by decide, by decide, rfl, by decide, by decide⟩
/-- The last key, 0xF, and the first value that is none, 0x10. -/
theorem witness_KeySkipResults : ((withV [(1, 0x0F)] State.reset).getV 1).toNat ≤ 0xF ∧
    ((withV [(1, 0x10)] State.reset).getV 1).toNat > 0xF := by decide
theorem witness_KeyWaitResult : ({ State.reset.inp with keyEvent := some 0xF } : Inputs).keyEvent = some 0xF ∧
    State.reset.inp.keyEvent = none := by decide
theorem witness_FaultsArePreciseAndTabled_raised : ∃ t, exec .ret State.reset = .next t ∧ faultOf .ret State.reset ≠ .none :=
  ⟨_, rfl, by decide⟩
theorem witness_FaultsArePreciseAndTabled_not :
    ∃ t, exec .ret { State.reset with SP := 1 } = .next t ∧ faultOf .ret { State.reset with SP := 1 } = .none :=
  ⟨_, rfl, by decide⟩
theorem witness_OnlyTheseInstructionsWrite :
    ∃ t, exec (.ldB 3) State.reset = .next t ∧ faultOf (.ldB 3) State.reset = .none := ⟨_, rfl, by decide⟩
/-- Another value of every input, for an instruction that reads none. -/
theorem witness_InputsReachOnlyTheirReaders :
    let p : Inputs := { keys := 0xFFFF, keyEvent := some 3, rand := 0xFF }
    ∃ t, exec (.ldF 3) State.reset = .next t ∧ ((∃ x nn, Instr.ldF 3 = .rnd x nn) → p.rand = State.reset.inp.rand) ∧
      ((∃ x, Instr.ldF 3 = .skp x ∨ Instr.ldF 3 = .sknp x) → p.keys = State.reset.inp.keys) ∧
      ((∃ x, Instr.ldF 3 = .ldVK x) → p.keyEvent = State.reset.inp.keyEvent) :=
  ⟨_, rfl, by simp, by simp, by simp⟩
theorem witness_SoundTimerIsNotRead : ∃ t, exec (.ldVDt 3) State.reset = .next t ∧ ∀ x, Instr.ldVDt 3 ≠ .ldStV x :=
  ⟨_, rfl, by simp⟩
theorem witness_SoundTimerIsNotRead_set : ∃ t, exec (.ldStV 3) State.reset = .next t ∧ ∃ x, Instr.ldStV 3 = .ldStV x :=
  ⟨_, rfl, 3, rfl⟩
theorem witness_ScreenIsReadOnlyByDraw : ∃ t, (∀ x y n, Instr.cls ≠ .drw x y n) ∧ exec .cls State.reset = .next t :=
  ⟨_, by simp, rfl⟩
theorem witness_AwaitingKeyTellsKeyWait : ∃ t, exec (.ldVK 3) State.reset = .next t := ⟨_, rfl⟩
/-- A stale entry that differs: entry 1 at `SP` = 1. -/
theorem witness_StaleStackIsInvisible :
    let s : State := { State.reset with SP := 1 }
    ∃ t, (∀ k : Nat, k < s.SP.val → (s.stack.set 1 0x555)[k]? = s.stack[k]?) ∧ exec .ret s = .next t := by
  refine ⟨_, fun k h => ?_, rfl⟩
  obtain rfl : k = 0 := by change k < 1 at h; omega
  rfl
theorem witness_BuildNeverChanges : ∃ t, step { State.reset with host := [.reset] } = .next t := ⟨_, rfl⟩
/-- From a state that meets the invariant a step to a faulted one. -/
theorem witness_StepKeepsInvariant :
    let s : State := { (State.reset.writeBytes 0x201 [0xEE]) with host := [.step State.reset.inp] }
    ∃ t, Inv s ∧ step s = .next t := by
  refine ⟨_, ⟨by decide, ⟨rfl, rfl⟩, ?_, ?_⟩, rfl⟩
  · intro h; cases h
  · intro _; exact ⟨rfl, rfl⟩

end Sys2Proof.Tests
end

