-- ==== Sys2Proof/Proofs/ResetFont.lean ====
section
/-! What memory reads as after reset (R31, R41), for every build, and from it the placement of the font in the build of
`State.reset`. -/

namespace Sys2Proof.Machine

open Sys2Proof

/-- Byte `r` of glyph `d` in the font table, which stores the glyphs one after another (R31). -/
theorem fontByte_glyph (b : Config.Build) (d r : Nat) (hd : d < 16) (hr : r < 5) :
    fontByte b (5 * d + r) = b.font[d][r] := by
  have hdiv : (5 * d + r) / 5 = d := by omega
  have hmod : (5 * d + r) % 5 = r := by omega
  simp only [fontByte, dif_pos (show 5 * d + r < 80 by omega), hdiv, hmod]

theorem unlisted_glyph (b : Config.Build) (d r : Nat) (hd : d < 16) (hr : r < 5) :
    unlisted b (b.fontBase.val + 5 * d + r) = b.font[d][r] := by
  have hin : b.fontBase.val ≤ b.fontBase.val + 5 * d + r ∧
      b.fontBase.val + 5 * d + r < b.fontBase.val + Config.fontSize := by
    simp only [Config.fontSize]; omega
  have hoff : b.fontBase.val + 5 * d + r - b.fontBase.val = 5 * d + r := by omega
  rw [unlisted, if_pos hin, hoff, fontByte_glyph b d r hd hr]

theorem unlisted_outside_font (b : Config.Build) (a : Nat)
    (h : a < b.fontBase.val ∨ b.fontBase.val + Config.fontSize ≤ a) : unlisted b a = 0 :=
  if_neg (by omega)

/-- Nothing is listed after reset, so every address reads as unlisted. -/
theorem State.readByte_resetOf (b : Config.Build) (a : Nat) : (State.resetOf b).readByte a = unlisted b a := rfl

theorem State.readByte_reset_glyph (d r : Nat) (hd : d < 16) (hr : r < 5) :
    State.reset.readByte (0x050 + 5 * d + r) = Config.standardFont[d][r] :=
  unlisted_glyph Config.Build.hardware d r hd hr

theorem State.readByte_reset_outside_font (a : Nat) (h : a < 0x050 ∨ 0x0A0 ≤ a) : State.reset.readByte a = 0 :=
  unlisted_outside_font Config.Build.hardware a h

/-- The five bytes of glyph `d`, read upward from its place, are its rows from top to bottom. -/
theorem State.map_readByte_reset_glyph (d : Nat) (hd : d < 16) :
    (List.range 5).map (fun r => State.reset.readByte (0x050 + 5 * d + r)) = Config.standardFont[d].toList := by
  refine List.ext_getElem (by simp) fun r hr _ => ?_
  have hr5 : r < 5 := by simpa using hr
  simp [State.readByte_reset_glyph d r hd hr5]

/-- Settles O8: glyph B is entry 11 of the table, and the two edge bytes lie outside it. -/
theorem resetFontPlacement : Obligations.ResetFontPlacement := by
  refine ⟨rfl, ?glyphB, State.readByte_reset_outside_font 0x04F (by decide),
    State.readByte_reset_outside_font 0x0A0 (by decide)⟩
  case glyphB =>
    calc (List.range 5).map (fun k => (State.reset.readByte (0x050 + 11 * 5 + k)).toNat)
        = ((List.range 5).map (fun k => State.reset.readByte (0x050 + 5 * 11 + k))).map BitVec.toNat :=
          List.map_map.symm
      _ = Config.standardFont[11].toList.map BitVec.toNat := by
          rw [State.map_readByte_reset_glyph 11 (by decide)]
      _ = [0xE0, 0x90, 0xE0, 0x90, 0xE0] := rfl

end Sys2Proof.Machine
end

