-- ==== Sys2Proof/Proofs/EncodeDecode.lean ====
section
/-! A word that decodes is the word of the instruction it decodes to (R60, R63, R67 to R71), family by family. -/

namespace Sys2Proof

variable {op : Word} {i : Instr} {f n : Nibble} {nn : Byte}

/-- A word of family `f` is what format `NNN` makes of `f` and the word's operand; likewise for the other formats. -/
theorem encNNN_of_fields (hf : (opFamily op).toNat = f.toNat) : encNNN f (opNNN op) = op := by
  rw [← BitVec.eq_of_toNat_eq hf, encNNN_fields]

theorem encXNN_of_fields (hf : (opFamily op).toNat = f.toNat) (hnn : opNN op = nn) : encXNN f (opX op) nn = op := by
  rw [← BitVec.eq_of_toNat_eq hf, ← hnn, encXNN_fields]

theorem encXYN_of_fields (hf : (opFamily op).toNat = f.toNat) (hn : (opN op).toNat = n.toNat) :
    encXYN f (opX op) (opY op) n = op := by
  rw [← BitVec.eq_of_toNat_eq hf, ← BitVec.eq_of_toNat_eq hn, encXYN_fields]

theorem encode_of_decodeFamily0 (hf : (opFamily op).toNat = 0x0) (h : decodeFamily0 op = some i) : encode i = op := by
  have word : encNNN 0x0 (opNNN op) = op := encNNN_of_fields hf
  unfold decodeFamily0 at h
  split_ifs at h with hcls hret <;> obtain rfl := Option.some.inj h
  · rwa [hcls] at word
  · rwa [hret] at word

theorem encode_of_decodeFamily8 (hf : (opFamily op).toNat = 0x8) (h : decodeFamily8 op = some i) : encode i = op := by
  unfold decodeFamily8 at h
  split at h
  case h_10 => cases h
  all_goals
    next hn =>
      obtain rfl := Option.some.inj h
      exact encXYN_of_fields hf hn

theorem encode_of_decodeFamilyE (hf : (opFamily op).toNat = 0xE) (h : decodeFamilyE op = some i) : encode i = op := by
  unfold decodeFamilyE at h
  split_ifs at h with hskp hsknp <;> obtain rfl := Option.some.inj h
  · exact encXNN_of_fields hf hskp
  · exact encXNN_of_fields hf hsknp

theorem encode_of_decodeFamilyF (hf : (opFamily op).toNat = 0xF) (h : decodeFamilyF op = some i) : encode i = op := by
  unfold decodeFamilyF at h
  split_ifs at h <;> obtain rfl := Option.some.inj h
  all_goals
    next hnn => exact encXNN_of_fields hf hnn

/-- The decoder loses no bit: encoding what a word decodes to gives the word back. -/
theorem encode_of_decode (h : decode op = some i) : encode i = op := by
  unfold decode at h
  split at h
  case h_1 hf => exact encode_of_decodeFamily0 hf h
  case h_9 hf => exact encode_of_decodeFamily8 hf h
  case h_15 hf => exact encode_of_decodeFamilyE hf h
  case h_16 => -- none of the families 0x0 to 0xE
    have hlt := (opFamily op).isLt
    simp only [imp_false] at *
    exact encode_of_decodeFamilyF (by omega) h
  all_goals obtain rfl := Option.some.inj h
  case h_2 hf | h_3 hf | h_11 hf | h_12 hf => exact encNNN_of_fields hf
  case h_4 hf | h_5 hf | h_7 hf | h_8 hf | h_13 hf => exact encXNN_of_fields hf rfl
  case h_6 hf | h_10 hf | h_14 hf => exact encXYN_of_fields hf rfl

end Sys2Proof
end

