-- ==== Sys2Proof/Proofs/ExecCases.lean ====
section
/-! What an instruction can answer, said once: the fault of the table of R118, or its effect. Every statement over all
instructions goes through `exec_cases`. -/

namespace Sys2Proof.Machine

open Sys2Proof

variable {i : Instr} {s t : State}

/-! ### The fault conditions as the checks of the meanings -/

/-- A fault condition reads `SP`, `I` and the registers alone. -/
theorem faultOf_congr (hSP : t.SP = s.SP) (hI : t.I = s.I) (hV : t.V = s.V) : faultOf i t = faultOf i s := by
  have hgetV := State.getV_congr hV
  cases i <;> simp only [faultOf, hSP, hI, hgetV]

/-- Only the fetch raises `FETCH_OUT_OF_BOUNDS`. -/
theorem faultOf_ne_fetchOutOfBounds : faultOf i s ≠ .fetchOutOfBounds := by
  cases i with
  | ret | call _ | drw _ _ _ | ldB _ | stRegs _ | ldRegs _ | skp _ | sknp _ => simp only [faultOf]; split <;> nofun
  | _ => exact nofun

/-- The bounds check of R45 against its row of R118, for an access of `k + 1` bytes. -/
theorem cause_eq_inBounds (s : State) (k : Nat) :
    (if s.I.toNat + k > 0xFFF then FaultCause.memoryOutOfBounds else .none) =
      if s.inBounds (k + 1) then .none else .memoryOutOfBounds := by
  rw [← ite_not]
  exact if_congr (by rw [State.inBounds_iff]; omega) rfl rfl

/-- An access that raises no fault lies inside the space. -/
theorem access_in_space {k : Nat}
    (h : (if s.I.toNat + k > 0xFFF then FaultCause.memoryOutOfBounds else .none) = .none) :
    s.I.toNat + (k + 1) ≤ 4096 := by
  by_contra hout
  exact absurd (ite_eq_right_iff.1 h (by omega)) (by decide)

theorem faultOf_drw (x y : RegIdx) (n : Nibble) (s : State) :
    faultOf (.drw x y n) s = if s.inBounds n.toNat then .none else .memoryOutOfBounds := by
  rw [← ite_not]
  exact if_congr (by rw [State.inBounds_iff]; omega) rfl rfl

/-- The key check against its row of R118. -/
theorem cause_eq_keyInRange (v : Byte) :
    (if v.toNat > 0xF then FaultCause.keyOutOfRange else .none) = if keyInRange v then .none else .keyOutOfRange := by
  rw [← ite_not]
  exact if_congr (by rw [keyInRange_iff]; omega) rfl rfl

/-! ### The answer of an instruction -/

/-- A check that fails is the fault it raises. -/
theorem checked_of_fault {c : Bool} {cause raised : FaultCause} (ok : State) (op : Word)
    (hraised : raised = if c then .none else cause) (h : raised ≠ .none) :
    (if c then ok else s.raiseFault cause op) = s.raiseFault raised op := by
  cases c with
  | true => exact absurd hraised h
  | false => rw [hraised]; rfl

/-- A check whose fault is not raised passes. -/
theorem checked_of_no_fault {c : Bool} {cause raised : FaultCause} (ok bad : State) (hcause : cause ≠ .none)
    (hraised : raised = if c then .none else cause) (h : raised = .none) : (if c then ok else bad) = ok := by
  cases c with
  | true => rfl
  | false => exact absurd (hraised.symm.trans h) hcause

/-- What an instruction does to a state in which it raises no fault: for the instructions that check something first, the
meaning behind the check; for every other its whole meaning. `exec_of_no_fault` ties it to `exec`. -/
def effect (i : Instr) (s : State) : State :=
  match i with
  | .ret => ({ s.advance with SP := s.SP - 1 } : State).jump ((s.stack[s.SP.val - 1]?).getD 0)
  | .call nnn =>
    ({ s.advance with stack := s.stack.setIfInBounds s.SP.val (s.pc + 2), SP := s.SP + 1 } : State).jump (zextAddr nnn)
  | .drw x y n =>
    let drawn := s.blit s.base (s.spriteCol x) (s.spriteRow y) n.toNat
    (s.advance.setFB drawn.1).setV VF (collisionFlag drawn.2)
  | .ldB x => s.advance.writeBytes s.base (bcdDigits (s.getV x))
  | .stRegs x => s.advance.writeBytes s.base (s.dumpV x)
  | .ldRegs x => s.advance.loadV s.base x
  | .skp x => s.advance.skipIf (s.keyPressed (s.getV x))
  | .sknp x => s.advance.skipIf (!s.keyPressed (s.getV x))
  | i =>
    match exec i s with
    | .next t => t
    | .fault _ | .refused _ => s

/-- An instruction whose fault condition holds answers the faulted state (R119). -/
theorem exec_of_fault (h : faultOf i s ≠ .none) :
    exec i s = .next (s.raiseFault (faultOf i s) (encode i)) := by
  cases i with
  | ret =>
    have hSP : s.SP.val = 0 := by by_contra hne; exact h (if_neg hne)
    obtain ⟨-, hpop⟩ | ⟨-, hpos, -⟩ := s.advance.pop_cases
    · simp only [exec, execRet, hpop, faultOf, if_pos hSP]
    · exact absurd hSP hpos.ne'
  | call nnn =>
    have hSP : s.SP.val = 16 := by by_contra hne; exact h (if_neg hne)
    obtain ⟨-, hpush⟩ | ⟨hlt, -⟩ := s.advance.push_cases s.advance.pc
    · simp only [exec, execCall, hpush, faultOf, if_pos hSP]
    · exact absurd hSP hlt.ne
  | drw x y n => exact congrArg _ (checked_of_fault _ _ (faultOf_drw x y n s) h)
  | ldB x => exact congrArg _ (checked_of_fault _ _ (cause_eq_inBounds s 2) h)
  | stRegs x => exact congrArg _ (checked_of_fault _ _ (cause_eq_inBounds s x.val) h)
  | ldRegs x => exact congrArg _ (checked_of_fault _ _ (cause_eq_inBounds s x.val) h)
  | skp x => exact congrArg _ (checked_of_fault _ _ (cause_eq_keyInRange _) h)
  | sknp x => exact congrArg _ (checked_of_fault _ _ (cause_eq_keyInRange _) h)
  | _ => exact absurd rfl h

/-- A return that raises no fault has an entry to pop. -/
theorem SP_pos_of_no_underflow (h : faultOf .ret s = .none) : 0 < s.SP.val :=
  Nat.pos_of_ne_zero fun hSP => absurd (ite_eq_right_iff.1 h hSP) (by decide)

/-- A call that raises no fault has room for an entry. -/
theorem SP_lt_of_no_overflow {nnn : Addr} (h : faultOf (.call nnn) s = .none) : s.SP.val < Config.stackDepth :=
  lt_of_le_of_ne (Nat.le_of_lt_succ s.SP.isLt) fun hSP => absurd (ite_eq_right_iff.1 h hSP) (by decide)

theorem val_SP_sub_one (h : 0 < s.SP.val) : (s.SP - 1).val = s.SP.val - 1 :=
  Fin.val_sub_one_of_ne_zero (Fin.pos_iff_ne_zero.1 h)

theorem val_SP_add_one (h : s.SP.val < Config.stackDepth) : (s.SP + 1).val = s.SP.val + 1 :=
  Fin.val_add_one_of_lt h

theorem exec_ret_of_pos (h : 0 < s.SP.val) : exec .ret s = .next (effect .ret s) := by
  obtain ⟨h0, -⟩ | ⟨hlt, -, hpop⟩ := s.advance.pop_cases
  · exact absurd h0 h.ne'
  · have hSP : s.SP - 1 = ⟨s.SP.val - 1, Nat.lt_succ_of_lt hlt⟩ := Fin.ext (val_SP_sub_one h)
    have htop : s.stack[s.SP.val - 1]? = some s.stack[s.SP.val - 1] := Vector.getElem?_eq_getElem hlt
    simp only [exec, execRet, hpop, effect, hSP, htop]
    rfl

theorem exec_call_of_lt (nnn : Addr) (h : s.SP.val < Config.stackDepth) :
    exec (.call nnn) s = .next (effect (.call nnn) s) := by
  have hSP : s.SP + 1 = ⟨s.SP.val + 1, Nat.succ_lt_succ h⟩ := Fin.ext (val_SP_add_one h)
  have hstack : s.stack.setIfInBounds s.SP.val (s.pc + 2) = s.stack.set s.SP.val (s.pc + 2) h :=
    Vector.ext fun k hk => by rw [Vector.getElem_setIfInBounds, Vector.getElem_set]
  obtain ⟨hfull, -⟩ | ⟨hlt, hpush⟩ := s.advance.push_cases s.advance.pc
  · exact absurd hfull h.ne
  · simp only [exec, execCall, hpush, effect, hSP, hstack]
    rfl

/-- An instruction whose fault condition does not hold answers its effect. -/
theorem exec_of_no_fault (h : faultOf i s = .none) : exec i s = .next (effect i s) := by
  cases i with
  | ret => exact exec_ret_of_pos (SP_pos_of_no_underflow h)
  | call nnn => exact exec_call_of_lt nnn (SP_lt_of_no_overflow h)
  | drw x y n => exact congrArg _ (checked_of_no_fault _ _ (by decide) (faultOf_drw x y n s) h)
  | ldB x => exact congrArg _ (checked_of_no_fault _ _ (by decide) (cause_eq_inBounds s 2) h)
  | stRegs x => exact congrArg _ (checked_of_no_fault _ _ (by decide) (cause_eq_inBounds s x.val) h)
  | ldRegs x => exact congrArg _ (checked_of_no_fault _ _ (by decide) (cause_eq_inBounds s x.val) h)
  | skp x => exact congrArg _ (checked_of_no_fault _ _ (by decide) (cause_eq_keyInRange _) h)
  | sknp x => exact congrArg _ (checked_of_no_fault _ _ (by decide) (cause_eq_keyInRange _) h)
  | _ => rfl

/-- A state with the same `SP`, `I` and registers raises the same fault. -/
theorem exec_of_fault_congr (h : faultOf i s ≠ .none) (hSP : t.SP = s.SP) (hI : t.I = s.I) (hV : t.V = s.V) :
    exec i t = .next (t.raiseFault (faultOf i s) (encode i)) := by
  rw [← faultOf_congr hSP hI hV] at h ⊢
  exact exec_of_fault h

theorem exec_of_no_fault_congr {u : State} (h : faultOf i s = .none) (hSP : t.SP = s.SP) (hI : t.I = s.I)
    (hV : t.V = s.V) (hu : effect i t = u) : exec i t = .next u :=
  hu ▸ exec_of_no_fault ((faultOf_congr hSP hI hV).trans h)

/-- Every instruction answers a next state, and it is one of two: the faulted state, or the effect. -/
theorem exec_cases (h : exec i s = .next t) :
    (faultOf i s ≠ .none ∧ t = s.raiseFault (faultOf i s) (encode i)) ∨ (faultOf i s = .none ∧ t = effect i s) := by
  by_cases hf : faultOf i s = .none
  · exact .inr ⟨hf, next_inj (h.symm.trans (exec_of_no_fault hf))⟩
  · exact .inl ⟨hf, next_inj (h.symm.trans (exec_of_fault hf))⟩

theorem effect_of_no_fault (h : exec i s = .next t) (hf : faultOf i s = .none) : effect i s = t :=
  next_inj ((exec_of_no_fault hf).symm.trans h)

/-! ### The two effects with cases: FX0A and FX1E -/

/-- FX0A with a key event. -/
theorem effect_ldVK_some (x : RegIdx) {k : Nibble} (h : s.inp.keyEvent = some k) :
    effect (.ldVK x) s = s.advance.setV x (zextKey k) := by
  simp only [effect, exec, execLdVK, h]

/-- FX0A without a key event. -/
theorem effect_ldVK_none (x : RegIdx) (h : s.inp.keyEvent = none) : effect (.ldVK x) s = s.waitForKey := by
  simp only [effect, exec, execLdVK, h]

/-- A change of the state that leaves `key_event` alone commutes with FX0A when it commutes with both its cases. -/
theorem effect_ldVK_comm (f : State → State) (x : RegIdx) (hevent : (f s).inp.keyEvent = s.inp.keyEvent)
    (hwait : (f s).waitForKey = f s.waitForKey)
    (hkey : ∀ v, (f s).advance.setV x v = f (s.advance.setV x v)) :
    effect (.ldVK x) (f s) = f (effect (.ldVK x) s) := by
  cases hk : s.inp.keyEvent with
  | none => rw [effect_ldVK_none x hk, effect_ldVK_none x (hevent.trans hk), hwait]
  | some k => rw [effect_ldVK_some x hk, effect_ldVK_some x (hevent.trans hk), hkey]

/-- What `f` says of the state after FX1E, in a build with the quirk and in one without (R100). -/
theorem map_effect_addI {α : Sort*} (f : State → α) (x : RegIdx) (s : State) :
    f (effect (.addI x) s) =
      if s.cfg.quirkFx1eVf then
        f ((s.advance.setI (s.I + zextByte (s.getV x))).setV VF (indexOverflowFlag s.I (s.getV x)))
      else f (s.advance.setI (s.I + zextByte (s.getV x))) :=
  apply_ite f (s.cfg.quirkFx1eVf = true) _ _

end Sys2Proof.Machine
end

