-- ==== Sys2Proof/Proofs/Frame.lean ====
section
/-! What an instruction leaves unchanged (R22, R25, R26, R29, R30, R48). Each named update of the state keeps the frame of a
write set that allows it; the frame of an instruction is read off the updates its effect is made of. -/

namespace Sys2Proof.Machine

open Sys2Proof

variable {i : Instr} {w : Writes} {s t : State}

/-! ### The frame of each update -/

theorem Keeps.advance (w : Writes) (s : State) : Keeps w s s.advance := by simp [Keeps]

theorem Keeps.waitForKey (w : Writes) (s : State) : Keeps w s s.waitForKey := by simp [Keeps]

theorem Keeps.jump (h : Keeps w s t) (target : Word) : Keeps w s (t.jump target) := h

theorem Keeps.skipIf (h : Keeps w s t) (c : Bool) : Keeps w s (t.skipIf c) := h

theorem Keeps.setV {x : RegIdx} (h : Keeps w s t) (hx : x ∈ w.regs) (v : Byte) : Keeps w s (t.setV x v) := by
  obtain ⟨hregs, hrest⟩ := h
  refine ⟨fun r hr => ?_, hrest⟩
  rw [State.getV_setV, if_neg (fun hrx : r = x => hr (hrx ▸ hx)), hregs r hr]

theorem Keeps.setI (h : Keeps w s t) (hw : w.index = true) (v : Word) : Keeps w s (t.setI v) := by
  obtain ⟨hregs, hmem, -, hrest⟩ := h
  exact ⟨hregs, hmem, fun hno => absurd (hw.symm.trans hno) (by decide), hrest⟩

theorem Keeps.setStack (h : Keeps w s t) (hw : w.stack = true) (stk : Vector Word Config.stackDepth)
    (sp : Fin (Config.stackDepth + 1)) : Keeps w s { t with stack := stk, SP := sp } := by
  obtain ⟨hregs, hmem, hI, -, hrest⟩ := h
  exact ⟨hregs, hmem, hI, fun hno => absurd (hw.symm.trans hno) (by decide), hrest⟩

theorem Keeps.setDT (h : Keeps w s t) (hw : w.delay = true) (v : Byte) : Keeps w s (t.setDT v) := by
  obtain ⟨hregs, hmem, hI, hstack, -, hrest⟩ := h
  exact ⟨hregs, hmem, hI, hstack, fun hno => absurd (hw.symm.trans hno) (by decide), hrest⟩

theorem Keeps.setST (h : Keeps w s t) (hw : w.sound = true) (v : Byte) : Keeps w s (t.setST v) := by
  obtain ⟨hregs, hmem, hI, hstack, hDT, -, hrest⟩ := h
  exact ⟨hregs, hmem, hI, hstack, hDT, fun hno => absurd (hw.symm.trans hno) (by decide), hrest⟩

theorem Keeps.setFB (h : Keeps w s t) (hw : w.screen = true) (fb : FrameBuffer) : Keeps w s (t.setFB fb) := by
  obtain ⟨hregs, hmem, hI, hstack, hDT, hST, -, hrest⟩ := h
  exact ⟨hregs, hmem, hI, hstack, hDT, hST, fun hno => absurd (hw.symm.trans hno) (by decide), hrest⟩

/-- Bytes written inside the space and inside the named range. -/
theorem Keeps.writeBytes (h : Keeps w s t) (vs : List Byte) (hlen : vs.length = w.memLen)
    (hspace : w.memFrom + w.memLen ≤ Config.memSize) : Keeps w s (t.writeBytes w.memFrom vs) := by
  obtain ⟨hregs, hmem, hrest⟩ := h
  refine ⟨hregs, fun a ha => ?_, hrest⟩
  rw [State.readByte_writeBytes t _ _ _ (hlen ▸ hspace), hlen, if_neg ha, hmem a ha]

/-- Registers loaded up to `x`, all of them named. -/
theorem Keeps.loadV {x : RegIdx} (h : Keeps w s t) (hx : ∀ r ≤ x, r ∈ w.regs) (base : Nat) :
    Keeps w s (t.loadV base x) := by
  obtain ⟨hregs, hrest⟩ := h
  refine ⟨fun r hr => ?_, hrest⟩
  rw [State.getV_loadV, if_neg (fun hle => hr (hx r hle)), hregs r hr]

theorem Keeps.ite {c : Prop} [Decidable c] {a b : State} (ha : c → Keeps w s a) (hb : ¬c → Keeps w s b) :
    Keeps w s (if c then a else b) := by
  split
  · next hc => exact ha hc
  · next hc => exact hb hc

/-! ### The frame of each instruction -/

theorem mem_regsWritten_ldRegs {quirk : Bool} {x r : RegIdx} : r ∈ regsWritten quirk (.ldRegs x) ↔ r ≤ x := by
  simp [regsWritten]

/-- The effect of an instruction writes nothing outside its row of the write table. -/
theorem effect_keeps (hf : faultOf i s = .none) : Keeps (writesOf s i) s (effect i s) := by
  have start : ∀ w, Keeps w s s.advance := fun w => .advance w s
  cases i with
  | cls => exact (start _).setFB rfl _
  | ret | call nnn => exact ((start _).setStack rfl _ _).jump _
  | jp nnn | jpOff x nnn => exact (start _).jump _
  | seImm x nn | sneImm x nn | seReg x y n | sneReg x y n | skp x | sknp x => exact (start _).skipIf _
  | ldImm x nn | addImm x nn | ldReg x y | orReg x y | andReg x y | xorReg x y | rnd x nn | ldVDt x =>
    exact (start _).setV (.head _) _
  | addReg x y | subReg x y | subnReg x y =>
    exact ((start _).setV (.head _) _).setV (.tail _ (.head _)) _
  | shr x y | shl x y => exact ((start _).setV (.tail _ (.head _)) _).setV (.head _) _
  | ldI nnn | ldF x => exact (start _).setI rfl _
  | addI x =>
    have hI : Keeps (writesOf s (.addI x)) s (s.advance.setI (s.I + zextByte (s.getV x))) := (start _).setI rfl _
    exact .ite (fun hquirk => hI.setV (by simp [writesOf, regsWritten, hquirk]) _) (fun _ => hI)
  | drw x y n => exact ((start _).setFB rfl _).setV (.head _) _
  | ldVK x =>
    cases hk : s.inp.keyEvent with
    | none => rw [effect_ldVK_none x hk]; exact .waitForKey _ s
    | some k => rw [effect_ldVK_some x hk]; exact (start _).setV (.head _) _
  | ldDtV x => exact (start _).setDT rfl _
  | ldStV x => exact (start _).setST rfl _
  | ldB x => exact (start _).writeBytes _ rfl (access_in_space hf)
  | stRegs x => exact (start _).writeBytes _ (s.length_dumpV x) (access_in_space hf)
  | ldRegs x => exact (start _).loadV (fun r hr => mem_regsWritten_ldRegs (quirk := s.cfg.quirkFx1eVf) |>.2 hr) _

theorem exec_keeps (h : exec i s = .next t) (hf : faultOf i s = .none) : Keeps (writesOf s i) s t :=
  effect_of_no_fault h hf ▸ effect_keeps hf

/-- Settles O52: the frame of the effect, for every instruction. -/
theorem onlyTheseInstructionsWrite : Obligations.OnlyTheseInstructionsWrite :=
  fun _ _ _ h hf => exec_keeps h hf

/-! ### What no operation changes -/

/-- Faulting or not, an instruction leaves the build and the admission of `Load` as they were. -/
theorem exec_keeps_interface (h : exec i s = .next t) : t.cfg = s.cfg ∧ t.loadOpen = s.loadOpen := by
  obtain ⟨-, rfl⟩ | ⟨hf, -⟩ := exec_cases h
  · exact ⟨rfl, rfl⟩
  · obtain ⟨-, -, -, -, -, -, -, -, hcfg, -, -, -, hopen, -⟩ := exec_keeps h hf
    exact ⟨hcfg, hopen⟩

theorem fetchAndRun_keeps_interface (h : fetchAndRun s = .next t) : t.cfg = s.cfg ∧ t.loadOpen = s.loadOpen := by
  obtain ⟨-, rfl⟩ | ⟨op, -, ⟨i, -, hexec⟩ | ⟨-, rfl⟩⟩ := fetchAndRun_cases h
  · exact ⟨rfl, rfl⟩
  · exact exec_keeps_interface hexec
  · exact ⟨rfl, rfl⟩

/-- Settles O58: a `Step` keeps the build by `fetchAndRun_keeps_interface`, every other operation by its definition. -/
theorem buildNeverChanges : Obligations.BuildNeverChanges := by
  intro s t h
  obtain ⟨ops, n, inp, ⟨-, rfl⟩ | ⟨-, hrun⟩⟩ | ⟨ops, rfl⟩ | ⟨ops, rfl⟩ | ⟨ops, rfl⟩ | ⟨ops, bytes, -, -, rfl⟩ :=
    step_cases h
  · rfl
  · exact (fetchAndRun_keeps_interface hrun).1
  all_goals rfl

end Sys2Proof.Machine
end

