-- ==== Sys2Proof/Proofs/NextPc.lean ====
section
/-! Where an instruction leaves `pc` (R24) and when it leaves `awaiting_key` 1 (R34), for every instruction. -/

namespace Sys2Proof.Machine

open Sys2Proof

variable {i : Instr} {s t : State}

theorem State.toNat_pc_advance (s : State) : s.advance.pc.toNat = (s.pc.toNat + 2) % 65536 :=
  BitVec.toNat_add s.pc 2

/-- A skip on the condition `p`, with the two increments in the order of the table. -/
theorem State.toNat_pc_skipIf (s : State) {c : Bool} {p : Prop} [Decidable p] (h : c = true ↔ p) :
    (s.advance.skipIf c).pc.toNat = if p then (s.pc.toNat + 4) % 65536 else (s.pc.toNat + 2) % 65536 := by
  rw [State.skipIf_pc, if_congr h rfl rfl]
  split
  · rw [BitVec.toNat_add, State.toNat_pc_advance, Nat.mod_add_mod]; rfl
  · exact State.toNat_pc_advance s

theorem State.toNat_pc_skipUnless (s : State) {c : Bool} {p : Prop} [Decidable p] (h : c = true ↔ ¬p) :
    (s.advance.skipIf c).pc.toNat = if p then (s.pc.toNat + 2) % 65536 else (s.pc.toNat + 4) % 65536 := by
  rw [State.toNat_pc_skipIf s h, ite_not]

/-- The target of BXNN does not wrap (R97). -/
theorem toNat_offsetTarget (nnn : Addr) (v : Byte) : (zextAddr nnn + zextByte v).toNat = nnn.toNat + v.toNat := by
  have := nnn.isLt
  have := v.isLt
  rw [BitVec.toNat_add, toNat_zextAddr, toNat_zextByte]
  omega

/-- The effect of an instruction leaves `pc` where the table says. -/
theorem effect_pc (hf : faultOf i s = .none) : (effect i s).pc.toNat = nextPc i s := by
  refine .trans ?_ (if_neg (not_not.2 hf)).symm
  have hnext : s.advance.pc.toNat = (s.pc.toNat + 2) % 65536 := s.toNat_pc_advance
  cases i with
  | ret => rfl
  | jp nnn | call nnn => exact toNat_zextAddr nnn
  | jpOff x nnn => exact toNat_offsetTarget nnn _
  | seImm x nn | seReg x y n => exact s.toNat_pc_skipIf beq_iff_eq
  | sneImm x nn | sneReg x y n => exact s.toNat_pc_skipUnless bne_iff_ne
  | skp x => exact s.toNat_pc_skipIf Iff.rfl
  | sknp x => exact s.toNat_pc_skipUnless (by simp [State.keyPressed])
  | ldVK x =>
    cases hk : s.inp.keyEvent with
    | none => rw [effect_ldVK_none x hk]; exact (if_pos rfl).symm
    | some k => rw [effect_ldVK_some x hk]; exact hnext
  | addI x => exact ((map_effect_addI (·.pc.toNat) x s).trans (ite_self _)).trans hnext
  | _ => exact hnext

theorem exec_pc (h : exec i s = .next t) : t.pc.toNat = nextPc i s := by
  obtain ⟨hf, rfl⟩ | ⟨hf, rfl⟩ := exec_cases h
  · exact (if_pos hf).symm
  · exact effect_pc hf

/-- Every instruction answers a next state: none stops the machine. -/
theorem exec_answers (i : Instr) (s : State) : ∃ t, exec i s = .next t := by
  by_cases hf : faultOf i s = .none
  · exact ⟨_, exec_of_no_fault hf⟩
  · exact ⟨_, exec_of_fault hf⟩

/-- Settles O51: the fault leaves `pc` at the instruction, the effect where `effect_pc` says. -/
theorem nextPcFollowsTable : Obligations.NextPcFollowsTable := by
  intro i s
  obtain ⟨t, ht⟩ := exec_answers i s
  exact ⟨t, ht, exec_pc ht⟩

/-! ### The key wait -/

theorem effect_awaitingKey_of_ne_ldVK (h : ∀ x, i ≠ .ldVK x) : (effect i s).awaitingKey = false := by
  cases i with
  | ldVK x => exact absurd rfl (h x)
  | addI x => exact (map_effect_addI State.awaitingKey x s).trans (ite_self _)
  | _ => rfl

theorem effect_awaitingKey_ldVK (x : RegIdx) :
    (effect (.ldVK x) s).awaitingKey = true ↔ s.inp.keyEvent = none := by
  cases hk : s.inp.keyEvent with
  | none => simp [effect_ldVK_none x hk]
  | some k => simp [effect_ldVK_some x hk]

/-- Settles O56: a fault clears the bit, and so does every effect but that of FX0A. -/
theorem awaitingKeyTellsKeyWait : Obligations.AwaitingKeyTellsKeyWait := by
  intro i s t h
  obtain ⟨hf, rfl⟩ | ⟨-, rfl⟩ := exec_cases h
  · have hi : ∀ x, i ≠ .ldVK x := fun x hx => hf (hx ▸ rfl)
    simp [hi]
  · by_cases hi : ∃ x, i = .ldVK x
    · obtain ⟨x, rfl⟩ := hi
      simp [effect_awaitingKey_ldVK x]
    · simp [effect_awaitingKey_of_ne_ldVK (not_exists.1 hi), hi]

end Sys2Proof.Machine
end

