-- ==== Sys2Proof/Proofs/Unread.lean ====
section
/-! What an instruction does not read (R28 to R30, R35 to R38): the inputs, `ST`, the framebuffer and the stale stack entries,
each in two steps. Replacing the part commutes with the effect; and no fault condition reads it, so it commutes with
`exec`. -/

namespace Sys2Proof.Machine

open Sys2Proof

variable {i : Instr} {s : State}

/-! ### The inputs -/

theorem effect_with_inp {p : Inputs} (hrand : (∃ x nn, i = .rnd x nn) → p.rand = s.inp.rand)
    (hkeys : (∃ x, i = .skp x ∨ i = .sknp x) → p.keys = s.inp.keys)
    (hevent : (∃ x, i = .ldVK x) → p.keyEvent = s.inp.keyEvent) :
    effect i { s with inp := p } = { effect i s with inp := p } := by
  cases i with
  | rnd x nn =>
    have h := hrand ⟨x, nn, rfl⟩
    simp only [effect, exec, execRnd, h]
    rfl
  | skp x =>
    have h := hkeys ⟨x, .inl rfl⟩
    simp only [effect, State.keyPressed, h]
    rfl
  | sknp x =>
    have h := hkeys ⟨x, .inr rfl⟩
    simp only [effect, State.keyPressed, h]
    rfl
  | ldVK x =>
    exact effect_ldVK_comm (fun t => { t with inp := p }) x (hevent ⟨x, rfl⟩) rfl (fun _ => rfl)
  | addI x => exact (map_effect_addI (fun t => { t with inp := p }) x s).symm
  | _ => rfl

/-- Settles O53: the readers excepted, the effect carries the inputs along. -/
theorem inputsReachOnlyTheirReaders : Obligations.InputsReachOnlyTheirReaders := by
  intro i s t p h hrand hkeys hevent
  obtain ⟨hf, rfl⟩ | ⟨hf, rfl⟩ := exec_cases h
  · exact exec_of_fault_congr hf rfl rfl rfl
  · exact exec_of_no_fault_congr hf rfl rfl rfl (effect_with_inp hrand hkeys hevent)

/-! ### The sound timer -/

theorem effect_setST_of_ne_ldStV (hi : ∀ x, i ≠ .ldStV x) (v : Byte) : effect i (s.setST v) = (effect i s).setST v := by
  cases i with
  | ldStV x => exact absurd rfl (hi x)
  | ldVK x => exact effect_ldVK_comm (State.setST · v) x rfl rfl (fun _ => rfl)
  | addI x => exact (map_effect_addI (State.setST · v) x s).symm
  | _ => rfl

/-- Settles O54: FX18 overwrites `ST` without reading it, and every other instruction carries it along. -/
theorem soundTimerIsNotRead : Obligations.SoundTimerIsNotRead := by
  intro i s t v h
  by_cases hi : ∃ x, i = .ldStV x
  · obtain ⟨x, rfl⟩ := hi
    obtain rfl := next_inj h
    exact ⟨_, rfl, fun hne => absurd rfl (hne x), fun _ => rfl⟩
  · refine ⟨v, ?_, fun _ => rfl, fun hx => absurd hx hi⟩
    obtain ⟨hf, rfl⟩ | ⟨hf, rfl⟩ := exec_cases h
    · exact exec_of_fault_congr hf rfl rfl rfl
    · exact exec_of_no_fault_congr hf rfl rfl rfl (effect_setST_of_ne_ldStV (not_exists.1 hi) v)

/-! ### The framebuffer -/

theorem effect_setFB_of_ne_display (hdrw : ∀ x y n, i ≠ .drw x y n) (hcls : i ≠ .cls) (fb : FrameBuffer) :
    effect i (s.setFB fb) = (effect i s).setFB fb := by
  cases i with
  | cls => exact absurd rfl hcls
  | drw x y n => exact absurd rfl (hdrw x y n)
  | ldVK x => exact effect_ldVK_comm (State.setFB · fb) x rfl rfl (fun _ => rfl)
  | addI x => exact (map_effect_addI (State.setFB · fb) x s).symm
  | _ => rfl

/-- Settles O55: 00E0 overwrites the framebuffer without reading it, and every other instruction but DXYN carries it
along. -/
theorem screenIsReadOnlyByDraw : Obligations.ScreenIsReadOnlyByDraw := by
  intro i s t fb hdrw h
  by_cases hcls : i = .cls
  · subst hcls
    obtain rfl := next_inj h
    rfl
  · rw [if_neg hcls]
    obtain ⟨hf, rfl⟩ | ⟨hf, rfl⟩ := exec_cases h
    · exact exec_of_fault_congr hf rfl rfl rfl
    · exact exec_of_no_fault_congr hf rfl rfl rfl (effect_setFB_of_ne_display hdrw hcls fb)

/-! ### The stale stack entries -/

/-- The arrays agree in the `n` entries from the bottom. -/
def AgreeBelow (n : Nat) (stk stk' : Vector Word Config.stackDepth) : Prop :=
  ∀ k : Nat, k < n → stk[k]? = stk'[k]?

theorem AgreeBelow.mono {m n : Nat} {stk stk' : Vector Word Config.stackDepth} (h : AgreeBelow n stk stk')
    (hmn : m ≤ n) : AgreeBelow m stk stk' :=
  fun k hk => h k (hk.trans_le hmn)

/-- A value pushed on both makes them agree in one entry more. -/
theorem AgreeBelow.push {n : Nat} {stk stk' : Vector Word Config.stackDepth} (h : AgreeBelow n stk stk') (v : Word) :
    AgreeBelow (n + 1) (stk.setIfInBounds n v) (stk'.setIfInBounds n v) := by
  intro k hk
  rw [Vector.getElem?_setIfInBounds, Vector.getElem?_setIfInBounds]
  split
  · rfl
  · exact h k (by omega)

theorem effect_with_stack_of_ne {stk : Vector Word Config.stackDepth} (hret : i ≠ .ret) (hcall : ∀ nnn, i ≠ .call nnn) :
    effect i { s with stack := stk } = { effect i s with stack := stk } := by
  cases i with
  | ret => exact absurd rfl hret
  | call nnn => exact absurd rfl (hcall nnn)
  | ldVK x => exact effect_ldVK_comm (fun t => { t with stack := stk }) x rfl rfl (fun _ => rfl)
  | addI x => exact (map_effect_addI (fun t => { t with stack := stk }) x s).symm
  | _ => rfl

/-- Only 2NNN and 00EE have the stack in their row of the write table. -/
theorem writesOf_stack_of_ne (hret : i ≠ .ret) (hcall : ∀ nnn, i ≠ .call nnn) : (writesOf s i).stack = false := by
  cases i with
  | ret => exact absurd rfl hret
  | call nnn => exact absurd rfl (hcall nnn)
  | _ => rfl

/-- The arrays after the effects agree below the new `SP` when they agreed below the old one. -/
theorem effect_with_stack {stk : Vector Word Config.stackDepth} (hf : faultOf i s = .none)
    (h : AgreeBelow s.SP.val stk s.stack) :
    ∃ stk', effect i { s with stack := stk } = { effect i s with stack := stk' } ∧
      AgreeBelow (effect i s).SP.val stk' (effect i s).stack := by
  by_cases hret : i = .ret
  · subst hret
    have hpos := SP_pos_of_no_underflow hf
    have htop : stk[s.SP.val - 1]? = s.stack[s.SP.val - 1]? := h _ (Nat.sub_lt hpos Nat.one_pos)
    refine ⟨stk, ?_, h.mono ((val_SP_sub_one hpos).trans_le (Nat.sub_le _ _))⟩
    simp only [effect, htop]
    rfl
  by_cases hcall : ∃ nnn, i = .call nnn
  · obtain ⟨nnn, rfl⟩ := hcall
    refine ⟨stk.setIfInBounds s.SP.val (s.pc + 2), rfl, ?_⟩
    exact (h.push (s.pc + 2)).mono (val_SP_add_one (SP_lt_of_no_overflow hf)).le
  · have hne := not_exists.1 hcall
    obtain ⟨-, -, -, hkeep, -⟩ := effect_keeps hf
    obtain ⟨hSP, hstack⟩ := hkeep (writesOf_stack_of_ne hret hne)
    refine ⟨stk, effect_with_stack_of_ne hret hne, ?_⟩
    rw [hSP, hstack]
    exact h

/-- Settles O57: a return reads the entry below `SP`, a call writes the one at `SP`, and nothing else touches the array. -/
theorem staleStackIsInvisible : Obligations.StaleStackIsInvisible := by
  intro i s t stk hagree h
  obtain ⟨hf, rfl⟩ | ⟨hf, rfl⟩ := exec_cases h
  · exact ⟨stk, exec_of_fault_congr hf rfl rfl rfl, hagree⟩
  · obtain ⟨stk', heffect, hagree'⟩ := effect_with_stack hf hagree
    exact ⟨stk', exec_of_no_fault_congr hf rfl rfl rfl heffect, hagree'⟩

end Sys2Proof.Machine
end

