-- ==== Sys2Proof/Proofs/Invariant.lean ====
section
/-! The invariant of the machine (R32 to R34, R118 to R120, R135): it holds after reset and every step keeps it. -/

namespace Sys2Proof.Machine

open Sys2Proof

variable {i : Instr} {op : Word} {s t : State}

/-! ### Memory stays in canonical form -/

/-- Only FX33 and FX55 write memory, and a write keeps the canonical form. -/
theorem effect_keeps_wf (i : Instr) (h : Memory.wf s.cfg s.mem) : Memory.wf (effect i s).cfg (effect i s).mem := by
  cases i with
  | ldB x | stRegs x => exact State.wf_writeBytes (s := s.advance) _ _ h
  | ldVK x =>
    cases hk : s.inp.keyEvent with
    | none => rw [effect_ldVK_none x hk]; exact h
    | some k => rw [effect_ldVK_some x hk]; exact h
  | addI x => exact ((map_effect_addI (fun t => Memory.wf t.cfg t.mem) x s).trans (ite_self _)).mpr h
  | _ => exact h

theorem exec_keeps_wf (h : exec i s = .next t) (hwf : Memory.wf s.cfg s.mem) : Memory.wf t.cfg t.mem := by
  obtain ⟨-, rfl⟩ | ⟨-, rfl⟩ := exec_cases h
  · exact hwf
  · exact effect_keeps_wf i hwf

/-! ### The fault record -/

theorem faultRecordHolds_iff_of_running (h : s.faultCause = .none) :
    FaultRecordHolds s ↔ s.faultPc = 0 ∧ s.faultOp = 0 := by
  simp only [FaultRecordHolds, h]

/-- While the block runs, the record is kept by whatever keeps the fault registers. -/
theorem FaultRecordHolds.of_keeps (h : FaultRecordHolds s) (hrun : s.faultCause = .none)
    (hkeeps : t.faultCause = s.faultCause ∧ t.faultPc = s.faultPc ∧ t.faultOp = s.faultOp) : FaultRecordHolds t := by
  obtain ⟨hcause, hpc, hop⟩ := hkeeps
  rw [faultRecordHolds_iff_of_running (hcause.trans hrun), hpc, hop]
  exact (faultRecordHolds_iff_of_running hrun).1 h

theorem faultRecordHolds_fetchFault (h : s.pc.toNat + 1 > 0xFFF) :
    FaultRecordHolds (s.raiseFault .fetchOutOfBounds 0) := ⟨rfl, rfl, rfl, h⟩

/-- The fault of a fetched instruction: `fault_op` is the fetched word, and nothing its condition reads has changed. -/
theorem faultRecordHolds_raiseFault (hfetch : s.fetch = some op) (hdecode : decode op = some i)
    (hf : faultOf i s ≠ .none) : FaultRecordHolds (s.raiseFault (faultOf i s) (encode i)) := by
  rw [encode_of_decode hdecode]
  have hcause : faultOf i (s.raiseFault (faultOf i s) op) = faultOf i s := faultOf_congr rfl rfl rfl
  unfold FaultRecordHolds
  split
  · next hnone => exact absurd hnone hf
  · next hfetchFault => exact absurd hfetchFault faultOf_ne_fetchOutOfBounds
  · exact ⟨rfl, rfl, hfetch, i, hdecode, hcause⟩

/-- An instruction of a running block leaves a true fault record: its own fault, or the zeros it found. -/
theorem exec_faultRecordHolds (hrun : s.faultCause = .none) (hrec : FaultRecordHolds s) (hfetch : s.fetch = some op)
    (hdecode : decode op = some i) (h : exec i s = .next t) : FaultRecordHolds t := by
  obtain ⟨hf, rfl⟩ | ⟨hf, -⟩ := exec_cases h
  · exact faultRecordHolds_raiseFault hfetch hdecode hf
  · obtain ⟨-, -, -, -, -, -, -, hfaultRegs, -⟩ := exec_keeps h hf
    exact hrec.of_keeps hrun hfaultRegs

/-! ### The key wait -/

theorem exec_waitsAtKeyWait (hrun : s.faultCause = .none) (hfetch : s.fetch = some op) (hdecode : decode op = some i)
    (h : exec i s = .next t) : WaitsAtKeyWait t := by
  intro hwaits
  obtain ⟨⟨x, rfl⟩, hevent⟩ := (awaitingKeyTellsKeyWait i s t h).1 hwaits
  have ht : s.waitForKey = t := (effect_ldVK_none x hevent).symm.trans (effect_of_no_fault h rfl)
  subst ht
  exact ⟨hrun, op, x, hfetch, hdecode⟩

/-! ### The invariant -/

theorem inv_resetOf (b : Config.Build) : Inv (State.resetOf b) :=
  ⟨Memory.wf_nil, ⟨rfl, rfl⟩, nofun, fun _ => ⟨rfl, rfl⟩⟩

/-- Settles O59: nothing is listed, the fault registers are 0, and the block neither waits nor has run. -/
theorem resetMeetsInvariant : Obligations.ResetMeetsInvariant :=
  ⟨inv_resetOf, inv_resetOf Config.Build.hardware⟩

/-- The invariant speaks of neither the timers nor the interface, but for the admission of `Load`. -/
theorem Inv.with_interface (h : Inv s) (dt st : Byte) (inp : Inputs) (ops : List HostOp) (n : Nat) {isOpen : Bool}
    (hopen : isOpen = true → s.loadOpen = true) :
    Inv { s with DT := dt, ST := st, inp := inp, host := ops, sampleNo := n, loadOpen := isOpen } := by
  obtain ⟨hwf, hrec, hwait, hload⟩ := h
  refine ⟨hwf, ?_, hwait, fun hnow => hload (hopen hnow)⟩
  have hcause (i : Instr) : faultOf i { s with
      DT := dt, ST := st, inp := inp, host := ops, sampleNo := n, loadOpen := isOpen } = faultOf i s :=
    faultOf_congr rfl rfl rfl
  unfold FaultRecordHolds
  simp only [hcause]
  exact hrec

/-- `Load` writes memory only, before the run, when no clause of the invariant but the canonical form speaks of memory. -/
theorem Inv.writeBytes (hinv : Inv s) (hopen : s.loadOpen = true) (a : Nat) (bytes : List Byte) :
    Inv (s.writeBytes a bytes) := by
  obtain ⟨hwf, hrec, -, hload⟩ := hinv
  obtain ⟨hrun, hkey⟩ := hload hopen
  have hwait : WaitsAtKeyWait (s.writeBytes a bytes) := fun hwaits => absurd (hkey.symm.trans hwaits) (by decide)
  exact ⟨State.wf_writeBytes a bytes hwf, hrec.of_keeps hrun ⟨rfl, rfl, rfl⟩, hwait, fun _ => ⟨hrun, hkey⟩⟩

/-- Fetch, decode and execute, in a block that is running and no longer admits `Load`. -/
theorem Inv.fetchAndRun (hinv : Inv s) (hrun : s.faultCause = .none) (hclosed : s.loadOpen = false)
    (h : fetchAndRun s = .next t) : Inv t := by
  obtain ⟨hwf, hrec, -, -⟩ := hinv
  have hload : LoadBeforeRun t := fun hopen =>
    absurd ((fetchAndRun_keeps_interface h).2.symm.trans hopen) (by simp [hclosed])
  obtain ⟨hout, rfl⟩ | ⟨op, hfetch, ⟨i, hdecode, hexec⟩ | ⟨-, rfl⟩⟩ := fetchAndRun_cases h
  · exact ⟨hwf, faultRecordHolds_fetchFault hout, nofun, hload⟩
  · exact ⟨exec_keeps_wf hexec hwf, exec_faultRecordHolds hrun hrec hfetch hdecode hexec,
      exec_waitsAtKeyWait hrun hfetch hdecode hexec, hload⟩
  · exact ⟨hwf, hrec.of_keeps hrun ⟨rfl, rfl, rfl⟩, nofun, hload⟩

/-- Settles O60, operation by operation: the invariant speaks of nothing that a halted `Step`, a `Tick` or a `Read`
changes. -/
theorem stepKeepsInvariant : Obligations.StepKeepsInvariant := by
  intro s t hinv h
  obtain ⟨ops, n, inp, ⟨-, rfl⟩ | ⟨hrun, hstep⟩⟩ | ⟨ops, rfl⟩ | ⟨ops, rfl⟩ | ⟨ops, rfl⟩ | ⟨ops, bytes, hopen, -, rfl⟩ :=
    step_cases h
  · exact hinv.with_interface s.DT s.ST s.inp ops n id
  · exact (hinv.with_interface s.DT s.ST inp ops n (isOpen := false) nofun).fetchAndRun hrun rfl hstep
  · exact hinv.with_interface _ _ s.inp ops s.sampleNo id
  · exact hinv.with_interface s.DT s.ST s.inp ops s.sampleNo id
  · exact inv_resetOf s.cfg
  · exact (hinv.with_interface s.DT s.ST s.inp ops s.sampleNo id).writeBytes hopen _ bytes

end Sys2Proof.Machine
end

