-- ==== Sys2Proof/Proofs/ResetAndRead.lean ====
section
/-! The state after reset, piece by piece (R41), for every build; and the host's `Read` (R40). -/

namespace Sys2Proof.Machine

open Sys2Proof

theorem State.getV_resetOf (b : Config.Build) (r : RegIdx) : (State.resetOf b).getV r = 0 :=
  Vector.getElem_replicate r.isLt

theorem State.stack_resetOf (b : Config.Build) (k : Fin 16) : (State.resetOf b).stack[k] = 0 :=
  Vector.getElem_replicate k.isLt

theorem holdsResetValues_resetOf (b : Config.Build) : HoldsResetValues b (State.resetOf b) :=
  ⟨rfl, unlisted_glyph b, unlisted_outside_font b, rfl, State.getV_resetOf b, rfl, rfl, State.stack_resetOf b, rfl, rfl,
    FrameBuffer.pixel_clear, rfl, rfl, rfl, rfl⟩

/-- Settles O7: the font is what unlisted addresses read as, the screen is the cleared one, and the other pieces are the
fields of `State.resetOf`. -/
theorem resetHoldsResetValues : Obligations.ResetHoldsResetValues :=
  ⟨fun b => ⟨holdsResetValues_resetOf b, rfl⟩, holdsResetValues_resetOf Config.Build.hardware⟩

/-- Settles O13: `Read` answers the state it is issued in, which `performNext` has taken off the list. -/
theorem readChangesNothing : Obligations.ReadChangesNothing := by
  intro s rest h
  simp only [step, performNext, h]
  rfl

end Sys2Proof.Machine
end

