-- ==== Sys2Proof/Proofs/StoredBytes.lean ====
section
/-! The bytes that FX55 stores (R103) and a fetch that reads them: code and data share memory (R42, R57, R139). -/

namespace Sys2Proof.Machine

open Sys2Proof

variable {s t : State}

/-- A register dump inside the space puts each register at its own offset (R103). -/
theorem State.readByte_writeBytes_dumpV (s u : State) (a : Nat) {x r : RegIdx} (hr : r ≤ x)
    (h : a + (x.val + 1) ≤ Config.memSize) : (u.writeBytes a (s.dumpV x)).readByte (a + r.val) = s.getV r := by
  have hlt : a + r.val < a + (x.val + 1) := Nat.add_lt_add_left (Nat.lt_succ_of_le hr) a
  rw [← s.length_dumpV x] at h hlt
  rw [State.readByte_writeBytes u a _ _ h, if_pos ⟨Nat.le_add_right _ _, hlt⟩, Nat.add_sub_cancel_left,
    State.getD_dumpV s x r hr]

/-- After FX55 on a range that fits, the byte at `I + r` is `V[r]`. -/
theorem readByte_of_exec_stRegs {x r : RegIdx} (hfit : s.I.toNat + x.val ≤ 0xFFF)
    (hexec : exec (.stRegs x) s = .next t) (hr : r ≤ x) : t.readByte (s.I.toNat + r.val) = s.getV r := by
  have hf : faultOf (.stRegs x) s = .none := if_neg (Nat.not_lt.2 hfit)
  rw [← effect_of_no_fault hexec hf]
  exact State.readByte_writeBytes_dumpV s s.advance _ hr (access_in_space hf)

/-- Settles O43: both bytes at `pc` lie in the stored range, and a fetch reads the memory that FX55 wrote. -/
theorem storedBytesAreFetched : Obligations.StoredBytesAreFetched := by
  intro x r s t u hfit hexec hmem hrx hpc
  have hin : u.pc.toNat + 1 ≤ 0xFFF := by omega
  have hhi : u.readByte u.pc.toNat = s.getV r := by
    rw [hmem, hpc]
    exact readByte_of_exec_stRegs hfit hexec (Nat.le_of_succ_le hrx)
  have hlo : u.readByte (u.pc.toNat + 1) = s.getV ⟨r.val + 1, hrx.trans_lt x.isLt⟩ := by
    rw [hmem, hpc]
    exact readByte_of_exec_stRegs (r := ⟨r.val + 1, hrx.trans_lt x.isLt⟩) hfit hexec hrx
  refine ⟨_, u.fetch_in_bounds hin, ?_⟩
  rw [toNat_wordOfBytes, hhi, hlo]

end Sys2Proof.Machine
end

