-- ==== Sys2Proof/Proofs/OpcodeMap.lean ====
section
/-! The decoder as the opcode map (R66 to R72): the word of every well-formed instruction read back, the map on the word as a
number, the words outside it, and the decoder of bytes (R74). -/

namespace Sys2Proof

variable {op : Word} {i : Instr}

/-! ### The round trip -/

/-- Settles O1, family by family: the decoder finds in the word of an instruction its family, its sub-selector and its
operands. -/
theorem decodeOfEncode : Obligations.DecodeOfEncode := by
  intro i hwf
  cases i with
  | cls | ret => rfl
  | jpOff x nnn =>
    have hx : x = addrTopReg nnn := by simpa [WellFormed] using hwf
    simp [encode, decode, hx]
  | jp _ | call _ | ldI _ | seImm _ _ | sneImm _ _ | ldImm _ _ | addImm _ _ | rnd _ _ | seReg _ _ _ | sneReg _ _ _
  | drw _ _ _ => simp [encode, decode]
  | ldReg _ _ | orReg _ _ | andReg _ _ | xorReg _ _ | addReg _ _ | subReg _ _ | shr _ _ | subnReg _ _ | shl _ _ =>
    simp [encode, decode, decodeFamily8]
  | skp _ | sknp _ => simp [encode, decode, decodeFamilyE]
  | ldVDt _ | ldVK _ | ldDtV _ | ldStV _ | addI _ | ldF _ | ldB _ | stRegs _ | ldRegs _ =>
    simp [encode, decode, decodeFamilyF]

/-- Of all terms only BXNN's can be ill formed, and the decoder takes both its fields from the same bits (R63). -/
theorem wellFormed_of_decode (h : decode op = some i) : WellFormed i = true := by
  cases i with
  | jpOff x nnn =>
    have hop : encNNN 0xB nnn = op := encode_of_decode h
    rw [← hop] at h
    have hx : addrTopReg nnn = x := by simpa [decode] using h
    simp [WellFormed, hx]
  | _ => rfl

/-- Settles O2: a word is rebuilt from its fields, and BXNN's register is one of them. -/
theorem encodeOfDecode : Obligations.EncodeOfDecode :=
  fun _ _ h => ⟨wellFormed_of_decode h, encode_of_decode h⟩

/-! ### The opcode map on the word as a number -/

theorem val_opX (op : Word) : (opX op).val = op.toNat / 256 % 16 := by
  change (op.extractLsb' 8 4).toNat = _
  rw [BitVec.extractLsb'_toNat, Nat.shiftRight_eq_div_pow]

theorem val_opY (op : Word) : (opY op).val = op.toNat / 16 % 16 := by
  change (op.extractLsb' 4 4).toNat = _
  rw [BitVec.extractLsb'_toNat, Nat.shiftRight_eq_div_pow]

theorem opNN_eq_iff {nn : Byte} : opNN op = nn ↔ op.toNat % 256 = nn.toNat := by
  rw [← BitVec.toNat_inj, toNat_opNN]

theorem opNNN_eq_iff {nnn : Addr} : opNNN op = nnn ↔ op.toNat % 4096 = nnn.toNat := by
  rw [← BitVec.toNat_inj, toNat_opNNN]

theorem decode_of_family0 (hf : op.toNat / 4096 = 0x0) : decode op = decodeFamily0 op := by
  simp only [decode, toNat_opFamily, hf]

theorem decode_of_family8 (hf : op.toNat / 4096 = 0x8) : decode op = decodeFamily8 op := by
  simp only [decode, toNat_opFamily, hf]

theorem decode_of_familyE (hf : op.toNat / 4096 = 0xE) : decode op = decodeFamilyE op := by
  simp only [decode, toNat_opFamily, hf]

theorem decode_of_familyF (hf : op.toNat / 4096 = 0xF) : decode op = decodeFamilyF op := by
  simp only [decode, toNat_opFamily, hf]

/-- Settles O3: the operands are the fields of the word, and each row of the map is the decoder's row of that family and
sub-selector. -/
theorem decodeFollowsOpcodeMap : Obligations.DecodeFollowsOpcodeMap := by
  intro op x y n nn nnn hx hy hn hnn hnnn
  rw [← val_opX, Fin.val_inj] at hx
  rw [← val_opY, Fin.val_inj] at hy
  rw [← toNat_opN, BitVec.toNat_inj] at hn
  rw [← toNat_opNN, BitVec.toNat_inj] at hnn
  rw [← toNat_opNNN, BitVec.toNat_inj] at hnnn
  subst hx hy hn hnn hnnn
  split
  case h_1 hf =>
    rw [decode_of_family0 hf, decodeFamily0]
    simp only [← BitVec.toNat_inj, BitVec.reduceToNat]
  case h_9 hf =>
    rw [decode_of_family8 hf]
    rfl
  case h_15 hf =>
    rw [decode_of_familyE hf, decodeFamilyE]
    simp only [← BitVec.toNat_inj, BitVec.reduceToNat]
    symm -- the map's match first, so that `split` takes its rows and not the decoder's tests
    split <;> simp_all only [imp_false, reduceIte, Nat.reduceEqDiff]
  case h_16 => -- none of the families 0x0 to 0xE
    rw [decode_of_familyF (by simp only [imp_false] at *; omega), decodeFamilyF]
    simp only [← BitVec.toNat_inj, BitVec.reduceToNat]
    symm
    split <;> simp_all only [imp_false, reduceIte, Nat.reduceEqDiff]
  all_goals
    next hf => simp only [decode, toNat_opFamily, hf]

/-! ### The words outside the map -/

theorem decodeFamily0_eq_none_iff : decodeFamily0 op = none ↔ op.toNat % 4096 ∉ [0x0E0, 0x0EE] := by
  simp [decodeFamily0, opNNN_eq_iff, ite_eq_iff]

theorem decodeFamily8_eq_none_iff :
    decodeFamily8 op = none ↔ op.toNat % 16 ∈ [0x8, 0x9, 0xA, 0xB, 0xC, 0xD, 0xF] := by
  have hlt : op.toNat % 16 < 16 := Nat.mod_lt _ (by decide)
  simp only [decodeFamily8, toNat_opN]
  generalize op.toNat % 16 = n at hlt
  split
  case h_10 =>
    simp only [imp_false] at *
    simp only [List.mem_cons, List.not_mem_nil, true_iff]
    omega
  all_goals simp

theorem decodeFamilyE_eq_none_iff : decodeFamilyE op = none ↔ op.toNat % 256 ∉ [0x9E, 0xA1] := by
  simp [decodeFamilyE, opNN_eq_iff, ite_eq_iff]

theorem decodeFamilyF_eq_none_iff :
    decodeFamilyF op = none ↔ op.toNat % 256 ∉ [0x07, 0x0A, 0x15, 0x18, 0x1E, 0x29, 0x33, 0x55, 0x65] := by
  simp [decodeFamilyF, opNN_eq_iff, ite_eq_iff]

/-- Every operand of a family without a sub-selector decodes (R71). -/
theorem decode_ne_none_of_no_selector (h0 : op.toNat / 4096 ≠ 0x0) (h8 : op.toNat / 4096 ≠ 0x8)
    (hE : op.toNat / 4096 ≠ 0xE) (hF : op.toNat / 4096 ≠ 0xF) : decode op ≠ none := by
  rw [decode, toNat_opFamily]
  split
  case h_1 hf => exact absurd hf h0
  case h_9 hf => exact absurd hf h8
  case h_15 hf => exact absurd hf hE
  case h_16 => -- only family 0xF is left
    simp only [imp_false] at *
    omega
  all_goals nofun

/-- Settles O4: one of the four sets for each family with a sub-selector, and none for the other families. -/
theorem undecodedWordsAreExactly : Obligations.UndecodedWordsAreExactly := by
  intro op
  by_cases h0 : op.toNat / 4096 = 0x0
  · simp [h0, decode_of_family0 h0, decodeFamily0_eq_none_iff]
  by_cases h8 : op.toNat / 4096 = 0x8
  · simp [h8, decode_of_family8 h8, decodeFamily8_eq_none_iff]
  by_cases hE : op.toNat / 4096 = 0xE
  · simp [hE, decode_of_familyE hE, decodeFamilyE_eq_none_iff]
  by_cases hF : op.toNat / 4096 = 0xF
  · simp [hF, decode_of_familyF hF, decodeFamilyF_eq_none_iff]
  · simp [h0, h8, hE, hF, decode_ne_none_of_no_selector]

/-- Settles O5, by running the decoder on each word. -/
theorem writtenOutWordsDecode : Obligations.WrittenOutWordsDecode := by
  unfold Obligations.WrittenOutWordsDecode
  decide

/-! ### The decoder of bytes -/

/-- The word with the first byte on top is the only one with that value (R46). -/
theorem eq_wordOfBytes_iff {hi lo : Byte} : op = wordOfBytes hi lo ↔ op.toNat = hi.toNat * 256 + lo.toNat := by
  rw [← BitVec.toNat_inj, toNat_wordOfBytes]

theorem decodeBytes_cons_cons (hi lo : Byte) (bytes rest : List Byte) :
    decodeBytes (hi :: lo :: bytes) = .ok (i, rest) ↔ decode (wordOfBytes hi lo) = some i ∧ bytes = rest := by
  rw [decodeBytes]
  split <;> simp [*]

/-- Settles O6, by the number of bytes: fewer than two are rejected. -/
theorem byteDecoderConsumesTwo : Obligations.ByteDecoderConsumesTwo := by
  intro bytes rest i
  match bytes with
  | [] | [_] => simp [decodeBytes]
  | hi :: lo :: tail =>
    simp only [decodeBytes_cons_cons, ← eq_wordOfBytes_iff]
    constructor
    · rintro ⟨hdecode, rfl⟩
      exact ⟨hi, lo, _, rfl, rfl, hdecode⟩
    · rintro ⟨_, _, _, hbytes, rfl, hdecode⟩
      cases hbytes
      exact ⟨hdecode, rfl⟩

end Sys2Proof
end

