-- ==== Sys2Proof/Proofs/RunningStep.lean ====
section
/-! What a `Step` of a running block answers (R59 to R62, R72): the fetch fault, a decode error, or the decoded instruction's
meaning; the same for the host's `Step` and for the free one of an empty list. -/

namespace Sys2Proof.Machine

open Sys2Proof

variable {s : State} {op : Word} {i : Instr}

theorem State.not_halted (hrun : s.faultCause = .none) : ¬ s.halted = true := fun h => s.halted_iff.1 h hrun

theorem fetchAndRun_of_no_fetch (hfetch : s.fetch = none) :
    fetchAndRun s = .next (faulted s .fetchOutOfBounds 0) := by
  rw [fetchAndRun, hfetch]
  rfl

theorem fetchAndRun_of_decode (hfetch : s.fetch = some op) (hdecode : decode op = some i) :
    fetchAndRun s = exec i s := by
  simp only [fetchAndRun, hfetch, hdecode]

theorem fetchAndRun_of_decode_none (hfetch : s.fetch = some op) (hdecode : decode op = none) :
    fetchAndRun s = .next (s.decodeError op) := by
  simp only [fetchAndRun, hfetch, hdecode]

theorem runStep_of_running (s : State) (inp : Inputs) (hrun : s.faultCause = .none) :
    runStep inp s = fetchAndRun (s.sample inp) :=
  if_neg (State.not_halted hrun)

theorem runFreeStep_of_running (s : State) (hrun : s.faultCause = .none) :
    runFreeStep s = fetchAndRun (s.countSample.sample (freeInputs s.sampleNo)) :=
  if_neg (State.not_halted hrun)

theorem step_of_host_step {inp : Inputs} {rest : List HostOp} (h : s.host = .step inp :: rest) :
    step s = runStep inp (s.withHost rest) := by
  rw [step, performNext, h]
  rfl

theorem step_of_host_nil (h : s.host = []) : step s = runFreeStep s := by
  rw [step, performNext, h]

/-- A `Step` of a running block, the host's or the free one of an empty list (log 5, log 6), answers what fetch, decode and
execute make of the state with the inputs sampled, which fetches the same word. -/
theorem step_of_running {answer : State → Result} (hrun : s.faultCause = .none)
    (hanswer : ∀ t : State, t.fetch = s.fetch → fetchAndRun t = answer t) :
    (∀ (inp : Inputs) (rest : List HostOp), s.host = .step inp :: rest →
      step s = answer { s with inp := inp, host := rest, loadOpen := false }) ∧
    (s.host = [] →
      ∃ inp : Inputs, step s = answer { s with inp := inp, loadOpen := false, sampleNo := s.sampleNo + 1 }) := by
  constructor
  · intro inp rest hhost
    rw [step_of_host_step hhost, runStep_of_running (s.withHost rest) inp hrun]
    exact hanswer _ (State.fetch_congr rfl rfl rfl)
  · intro hhost
    refine ⟨freeInputs s.sampleNo, ?_⟩
    rw [step_of_host_nil hhost, runFreeStep_of_running s hrun]
    exact hanswer _ (State.fetch_congr rfl rfl rfl)

/-- Settles O14: the two bytes at `pc` are the word that the fetch reads. -/
theorem stepRunsDecodedInstruction : Obligations.StepRunsDecodedInstruction := by
  intro s op i hrun hpc hop hdecode
  have hfetch : s.fetch = some op := by rw [s.fetch_in_bounds hpc, eq_wordOfBytes_iff.2 hop]
  exact step_of_running hrun fun t ht => fetchAndRun_of_decode (ht.trans hfetch) hdecode

/-- Settles O15: in bounds the fetch reads the big-endian word, past 0xFFE it reads none. -/
theorem fetchBounds : Obligations.FetchBounds := by
  intro s
  constructor
  · intro hin
    exact ⟨_, s.fetch_in_bounds hin, toNat_wordOfBytes _ _⟩
  · intro hout hrun
    exact step_of_running (answer := fun t => .next (faulted t .fetchOutOfBounds 0)) hrun fun t ht =>
      fetchAndRun_of_no_fetch (ht.trans (s.fetch_out_of_bounds hout))

/-- Settles O16: `State.decodeError` is the state `u`. -/
theorem decodeErrorIsNoOp : Obligations.DecodeErrorIsNoOp := by
  intro s op hrun hfetch hdecode
  have hmoves : MovesOn 2 s (s.decodeError op) := ⟨s.toNat_pc_advance, rfl⟩
  exact ⟨s.decodeError op, hmoves, rfl, rfl,
    step_of_running (answer := fun t => .next (t.decodeError op)) hrun fun t ht =>
      fetchAndRun_of_decode_none (ht.trans hfetch) hdecode⟩

end Sys2Proof.Machine
end

