-- ==== Sys2Proof/Proofs/EncodedWords.lean ====
section
/-! The words of the formats XNN and XYS (R63) as the numbers the obligations write, each the encoding of its instruction. -/

namespace Sys2Proof

open Sys2Proof.Machine

variable {i : Instr} {f n : Nibble} {x y : RegIdx} {nn : Byte}

/-- The number of the word of a well-formed instruction encodes it. -/
theorem encodes_toNat_encode (hwf : WellFormed i = true) : Encodes (encode i).toNat i := by
  rw [Encodes, BitVec.ofNat_toNat, BitVec.setWidth_eq]
  exact decodeOfEncode i hwf

/-- `fixed` is the number of the family's bits. -/
theorem encodes_of_encXNN {fixed : Nat} (hwf : WellFormed i = true) (hword : encode i = encXNN f x nn)
    (hfixed : f.toNat * 4096 = fixed) : Encodes (fixed + 256 * x.val + nn.toNat) i := by
  rw [← hfixed, Nat.mul_comm 256, ← toNat_encXNN, ← hword]
  exact encodes_toNat_encode hwf

/-- `fixed` is the number of the bits of the family and the sub-selector. -/
theorem encodes_of_encXYN {fixed : Nat} (hwf : WellFormed i = true) (hword : encode i = encXYN f x y n)
    (hfixed : f.toNat * 4096 + n.toNat = fixed) : Encodes (fixed + 256 * x.val + 16 * y.val) i := by
  subst hfixed
  have hnum : (encode i).toNat = f.toNat * 4096 + n.toNat + 256 * x.val + 16 * y.val := by
    rw [hword, toNat_encXYN]
    omega
  exact hnum ▸ encodes_toNat_encode hwf

end Sys2Proof
end

