-- ==== Sys2Proof/Proofs/Arithmetic.lean ====
section
/-! The arithmetic and logic instructions (R76 to R88). Their meanings have three forms: one register written; the result and
then a flag in VF; a flag in VF and then the result, read back after that write (R17, the spec's decision D10). What each form
leaves is said once, and every statement reads it. -/

namespace Sys2Proof.Machine

open Sys2Proof

variable {i : Instr} {s t : State} {x : RegIdx} {v flag : Byte} {k : Nat}

/-! ### The three forms -/

@[simp] theorem State.getV_setV_same (s : State) (x : RegIdx) (v : Byte) : (s.setV x v).getV x = v := by
  rw [State.getV_setV, if_pos rfl]

theorem State.getV_setV_other (s : State) {x r : RegIdx} (h : r ≠ x) (v : Byte) : (s.setV x v).getV r = s.getV r := by
  rw [State.getV_setV, if_neg h]

theorem State.movesOn_advance (s : State) : MovesOn 2 s s.advance := ⟨s.toNat_pc_advance, rfl⟩

theorem MovesOn.setV (h : MovesOn k s t) (x : RegIdx) (v : Byte) : MovesOn k s (t.setV x v) := h

/-- One register written. -/
theorem answer_of_setV (hexec : exec i s = .next (s.advance.setV x v)) :
    ∃ t, exec i s = .next t ∧ t.getV x = v ∧ MovesOn 2 s t ∧ Keeps { regs := [x] } s t :=
  ⟨_, hexec, State.getV_setV_same _ x v, s.movesOn_advance.setV x v, (Keeps.advance _ s).setV (.head _) v⟩

/-- The result, then the flag: with `x` = 15 the flag is what stays. -/
theorem answer_of_result_then_flag (hexec : exec i s = .next ((s.advance.setV x v).setV VF flag)) :
    ∃ t, exec i s = .next t ∧ (x ≠ VF → t.getV x = v) ∧ t.getV VF = flag ∧ MovesOn 2 s t ∧
      Keeps { regs := [x, VF] } s t := by
  refine ⟨_, hexec, fun hx => ?_, State.getV_setV_same _ VF flag, (s.movesOn_advance.setV x v).setV VF flag,
    ((Keeps.advance _ s).setV (.head _) v).setV (.tail _ (.head _)) flag⟩
  rw [State.getV_setV_other _ hx, State.getV_setV_same]

/-- The flag, then the result of `f` on the register read after that write: with `x` = 15 it is `f` of the flag. -/
theorem answer_of_flag_then_result (f : Byte → Byte)
    (hexec : exec i s = .next ((s.advance.setV VF flag).setV x (f ((s.advance.setV VF flag).getV x)))) :
    ∃ t, exec i s = .next t ∧ (x ≠ VF → t.getV x = f (s.getV x) ∧ t.getV VF = flag) ∧ (x = VF → t.getV VF = f flag) ∧
      MovesOn 2 s t ∧ Keeps { regs := [x, VF] } s t := by
  refine ⟨_, hexec, fun hx => ⟨?_, ?_⟩, ?_, (s.movesOn_advance.setV VF flag).setV x _,
    ((Keeps.advance _ s).setV (.tail _ (.head _)) flag).setV (.head _) _⟩
  · rw [State.getV_setV_same, State.getV_setV_other _ hx]
    rfl
  · rw [State.getV_setV_other _ hx.symm, State.getV_setV_same]
  · rintro rfl
    rw [State.getV_setV_same, State.getV_setV_same]

/-! ### One register written -/

/-- Settles O20: the register written holds the immediate. -/
theorem loadImmediateResult : Obligations.LoadImmediateResult := by
  intro x nn s
  obtain ⟨t, hexec, hx, -, hkeeps⟩ := answer_of_setV (i := .ldImm x nn) (s := s) rfl
  exact ⟨encodes_of_encXNN rfl rfl rfl, t, hexec, hx, hkeeps⟩

/-- Settles O21: the sum of bytes wraps, and the frame names `x` alone. -/
theorem addImmediateResult : Obligations.AddImmediateResult := by
  intro x nn s
  obtain ⟨t, hexec, hx, -, hkeeps⟩ := answer_of_setV (i := .addImm x nn) (s := s) rfl
  refine ⟨encodes_of_encXNN rfl rfl rfl, t, hexec, ?_, hkeeps⟩
  rw [hx, BitVec.toNat_add]

/-- Settles O22: the register written holds the old `V[y]`. -/
theorem registerCopyResult : Obligations.RegisterCopyResult := by
  intro x y s
  obtain ⟨t, hexec, hx, -, hkeeps⟩ := answer_of_setV (i := .ldReg x y) (s := s) rfl
  exact ⟨encodes_of_encXYN rfl rfl rfl, t, hexec, hx, hkeeps⟩

/-- Settles O23: the bits of each of the three results, and the frame names `x` alone. -/
theorem bitwiseResults : Obligations.BitwiseResults := by
  intro x y s
  refine ⟨⟨encodes_of_encXYN rfl rfl rfl, ?_⟩, ⟨encodes_of_encXYN rfl rfl rfl, ?_⟩, ⟨encodes_of_encXYN rfl rfl rfl, ?_⟩⟩
  · obtain ⟨t, hexec, hx, -, hkeeps⟩ := answer_of_setV (i := .orReg x y) (s := s) rfl
    exact ⟨t, hexec, fun k _ => by rw [hx, BitVec.getLsbD_or], hkeeps⟩
  · obtain ⟨t, hexec, hx, -, hkeeps⟩ := answer_of_setV (i := .andReg x y) (s := s) rfl
    exact ⟨t, hexec, fun k _ => by rw [hx, BitVec.getLsbD_and], hkeeps⟩
  · obtain ⟨t, hexec, hx, -, hkeeps⟩ := answer_of_setV (i := .xorReg x y) (s := s) rfl
    exact ⟨t, hexec, fun k _ => by rw [hx, BitVec.getLsbD_xor], hkeeps⟩

/-- Settles O29: the bits of the immediate masked by the sampled byte. -/
theorem randomResult : Obligations.RandomResult := by
  intro x nn s
  obtain ⟨t, hexec, hx, hrest⟩ := answer_of_setV (i := .rnd x nn) (s := s) rfl
  exact ⟨encodes_of_encXNN rfl rfl rfl, t, hexec, fun k _ => by rw [hx, BitVec.getLsbD_and], hrest⟩

/-! ### The result, then the flag -/

/-- A difference of bytes wraps (R84, R86). -/
theorem toNat_sub_byte (a b : Byte) : (a - b).toNat = (a.toNat + 256 - b.toNat) % 256 := by
  have := b.isLt
  rw [BitVec.toNat_sub]
  congr 1
  omega

/-- Settles O24: the wrapped sum, then the carry of the operands read at the start. -/
theorem addWithCarryResult : Obligations.AddWithCarryResult := by
  intro x y s
  obtain ⟨t, hexec, hx, hVF, hrest⟩ := answer_of_result_then_flag (i := .addReg x y) (s := s) rfl
  refine ⟨encodes_of_encXYN rfl rfl rfl, t, hexec, fun hne => ?_, ?_, hrest⟩
  · rw [hx hne, BitVec.toNat_add]
  · rw [hVF, toNat_carryFlag]

/-- Settles O25: the wrapped difference, then NOT borrow. -/
theorem subtractResult : Obligations.SubtractResult := by
  intro x y s
  obtain ⟨t, hexec, hx, hVF, hrest⟩ := answer_of_result_then_flag (i := .subReg x y) (s := s) rfl
  refine ⟨encodes_of_encXYN rfl rfl rfl, t, hexec, fun hne => ?_, ?_, hrest⟩
  · rw [hx hne, toNat_sub_byte]
  · rw [hVF, toNat_notBorrowFlag]

/-- Settles O26: the wrapped difference the other way round, then its NOT borrow. -/
theorem reverseSubtractResult : Obligations.ReverseSubtractResult := by
  intro x y s
  obtain ⟨t, hexec, hx, hVF, hrest⟩ := answer_of_result_then_flag (i := .subnReg x y) (s := s) rfl
  refine ⟨encodes_of_encXYN rfl rfl rfl, t, hexec, fun hne => ?_, ?_, hrest⟩
  · rw [hx hne, toNat_sub_byte]
  · rw [hVF, toNat_notBorrowFlag]

/-! ### The flag, then the result -/

theorem toNat_halved (a : Byte) : (a >>> 1).toNat = a.toNat / 2 := by
  rw [BitVec.toNat_ushiftRight, Nat.shiftRight_one]

theorem toNat_doubled (a : Byte) : (a <<< 1).toNat = a.toNat * 2 % 256 := by
  rw [BitVec.toNat_shiftLeft, Nat.shiftLeft_eq]

/-- The bit shifted out to the right, halved, leaves nothing (R85, decision D10). -/
theorem toNat_shiftRightFlag_halved (a : Byte) : (shiftRightFlag a >>> 1).toNat = 0 := by
  rw [toNat_halved, toNat_shiftRightFlag]
  omega

/-- The bit shifted out to the left, doubled (R87, decision D10). -/
theorem toNat_shiftLeftFlag_doubled (a : Byte) :
    (shiftLeftFlag a <<< 1).toNat = if a.toNat ≥ 128 then 2 else 0 := by
  have := a.isLt
  rw [toNat_doubled, toNat_shiftLeftFlag]
  split <;> omega

/-- Settles O27: bit 0 to VF and then the register halved, which with `x` = 15 is that bit halved. -/
theorem shiftRightResult : Obligations.ShiftRightResult := by
  intro x y s
  obtain ⟨t, hexec, hx, hVF, hrest⟩ := answer_of_flag_then_result (i := .shr x y) (s := s) (· >>> 1) rfl
  refine ⟨encodes_of_encXYN rfl rfl rfl, ⟨t, hexec, fun hne => ?_, fun heq => ?_, hrest⟩, fun _ => rfl⟩
  · obtain ⟨hresult, hflag⟩ := hx hne
    rw [hresult, hflag, toNat_halved, toNat_shiftRightFlag]
    exact ⟨rfl, rfl⟩
  · rw [hVF heq, toNat_shiftRightFlag_halved]

/-- Settles O28: bit 7 to VF and then the register doubled, which with `x` = 15 is that bit doubled. -/
theorem shiftLeftResult : Obligations.ShiftLeftResult := by
  intro x y s
  obtain ⟨t, hexec, hx, hVF, hrest⟩ := answer_of_flag_then_result (i := .shl x y) (s := s) (· <<< 1) rfl
  refine ⟨encodes_of_encXYN rfl rfl rfl, ⟨t, hexec, fun hne => ?_, fun heq => ?_, hrest⟩, fun _ => rfl⟩
  · obtain ⟨hresult, hflag⟩ := hx hne
    rw [hresult, hflag, toNat_doubled, toNat_shiftLeftFlag]
    exact ⟨rfl, rfl⟩
  · rw [hVF heq, toNat_shiftLeftFlag_doubled, heq]

end Sys2Proof.Machine
end

