-- ==== Sys2Proof/Proofs/EncodedOperands.lean ====
section
/-! The words of the formats NNN and XYN (R63) as the numbers the obligations write, their last field an operand of the
instruction and no sub-selector. -/

namespace Sys2Proof

open Sys2Proof.Machine

variable {i : Instr} {f n : Nibble} {x y : RegIdx} {nnn : Addr} {fixed : Nat}

/-- `fixed` is the number of the family's bits. -/
theorem ofNat_eq_encNNN (hfixed : f.toNat * 4096 = fixed) : BitVec.ofNat 16 (fixed + nnn.toNat) = encNNN f nnn := by
  rw [← hfixed, ← toNat_encNNN, BitVec.ofNat_toNat, BitVec.setWidth_eq]

theorem encodes_of_encNNN (hwf : WellFormed i = true) (hword : encode i = encNNN f nnn)
    (hfixed : f.toNat * 4096 = fixed) : Encodes (fixed + nnn.toNat) i := by
  rw [Encodes, ofNat_eq_encNNN hfixed, ← hword]
  exact decodeOfEncode i hwf

theorem encodes_of_encXYN_operand (hwf : WellFormed i = true) (hword : encode i = encXYN f x y n)
    (hfixed : f.toNat * 4096 = fixed) : Encodes (fixed + 256 * x.val + 16 * y.val + n.toNat) i := by
  have hnum : fixed + n.toNat + 256 * x.val + 16 * y.val = fixed + 256 * x.val + 16 * y.val + n.toNat := by omega
  rw [← hnum]
  exact encodes_of_encXYN hwf hword (congrArg (· + n.toNat) hfixed)

/-- The register that the top nibble of an address names, as a number (R63). -/
theorem val_addrTopReg (nnn : Addr) : (addrTopReg nnn).val = nnn.toNat / 256 := by
  have := nnn.isLt
  change (nnn.extractLsb' 8 4).toNat = _
  rw [BitVec.extractLsb'_toNat, Nat.shiftRight_eq_div_pow]
  omega

end Sys2Proof
end

