-- ==== Sys2Proof/Proofs/ControlFlow.lean ====
section
/-! The control-flow instructions (R89 to R97): the two jumps, the four skips, and the call and the return, whose two cases
are the two of `exec_cases`. -/

namespace Sys2Proof.Machine

open Sys2Proof

variable {i : Instr} {s : State} {p : Prop} [Decidable p] {c : Bool}

/-! ### Jumps -/

theorem answer_of_jump {target : Word} {n : Nat} (hexec : exec i s = .next (s.advance.jump target))
    (htarget : target.toNat = n) : ∃ t, exec i s = .next t ∧ GoesTo n t ∧ Keeps {} s t :=
  ⟨_, hexec, ⟨htarget, rfl⟩, (Keeps.advance _ s).jump target⟩

/-- Settles O31: the target is the address widened with zeros. -/
theorem jumpResult : Obligations.JumpResult :=
  fun nnn _ => ⟨encodes_of_encNNN rfl rfl rfl, answer_of_jump rfl (toNat_zextAddr nnn)⟩

/-- Settles O34: the sum does not wrap, and the word's register is the one that well-formedness asks for. -/
theorem offsetJumpResult : Obligations.OffsetJumpResult := by
  constructor
  · intro x nnn s
    exact answer_of_jump rfl (toNat_offsetTarget nnn (s.getV x))
  · intro nnn
    have hwf : WellFormed (.jpOff (addrTopReg nnn) nnn) = true := beq_self_eq_true _
    exact ⟨addrTopReg nnn, encodes_of_encNNN hwf rfl rfl, val_addrTopReg nnn⟩

/-! ### Skips -/

/-- A skip on the condition `p`. -/
theorem answer_of_skipIf (hexec : exec i s = .next (s.advance.skipIf c)) (hc : c = true ↔ p) :
    ∃ t, exec i s = .next t ∧ MovesOn (if p then 4 else 2) s t ∧ Keeps {} s t := by
  refine ⟨_, hexec, ⟨?_, rfl⟩, (Keeps.advance _ s).skipIf c⟩
  rw [State.toNat_pc_skipIf s hc, apply_ite fun k => (s.pc.toNat + k) % 65536]

/-- A skip on the negation of `p`, with the two increments in the order of the statements. -/
theorem answer_of_skipUnless (hexec : exec i s = .next (s.advance.skipIf c)) (hc : c = true ↔ ¬p) :
    ∃ t, exec i s = .next t ∧ MovesOn (if p then 2 else 4) s t ∧ Keeps {} s t := by
  rw [← ite_not]
  exact answer_of_skipIf hexec hc

/-- Settles O33: each skip tests the equality of its two bytes, or its negation. -/
theorem skipResults : Obligations.SkipResults := by
  intro x y nn n s
  refine ⟨⟨encodes_of_encXNN rfl rfl rfl, ?seImm⟩, ⟨encodes_of_encXNN rfl rfl rfl, ?sneImm⟩,
    ⟨encodes_of_encXYN_operand rfl rfl rfl, ?seReg⟩, ⟨encodes_of_encXYN_operand rfl rfl rfl, ?sneReg⟩⟩
  case seImm | seReg => exact answer_of_skipIf rfl beq_iff_eq
  case sneImm | sneReg => exact answer_of_skipUnless rfl bne_iff_ne

/-! ### Call and return -/

/-- An instruction answers the faulted state of the cause its condition raises. -/
theorem exec_of_cause {cause : FaultCause} (hcause : faultOf i s = cause) (hne : cause ≠ .none) :
    exec i s = .next (faulted s cause (encode i)) := by
  subst hcause
  exact exec_of_fault hne

/-- Settles O30: the effect of a return reads the entry below `SP` and leaves the array. -/
theorem returnResult : Obligations.ReturnResult := by
  intro s
  refine ⟨rfl, fun hne => ?_, fun hempty => exec_of_cause (if_pos hempty) nofun⟩
  have hpos : 0 < s.SP.val := Nat.pos_of_ne_zero hne
  have hf : faultOf .ret s = .none := if_neg hne
  have hlt : s.SP.val - 1 < Config.stackDepth := by have := s.SP.isLt; omega
  have htop : s.stack[s.SP.val - 1]? = some s.stack[s.SP.val - 1] := Vector.getElem?_eq_getElem hlt
  have hpc : (effect .ret s).pc = s.stack[s.SP.val - 1] := congrArg (·.getD 0) htop
  exact ⟨_, _, exec_ret_of_pos hpos, htop, ⟨congrArg BitVec.toNat hpc, rfl⟩, val_SP_sub_one hpos, rfl,
    effect_keeps hf⟩

/-- Settles O32: the effect of a call writes the entry at `SP`, which lies in the array, and no other. -/
theorem callResult : Obligations.CallResult := by
  intro nnn s
  refine ⟨encodes_of_encNNN rfl rfl rfl, fun hne => ?pushed, fun hfull => ?full⟩
  case pushed =>
    have hf : faultOf (.call nnn) s = .none := if_neg hne
    have hlt : s.SP.val < Config.stackDepth := SP_lt_of_no_overflow hf
    exact ⟨_, s.pc + 2, exec_call_of_lt nnn hlt, val_SP_add_one hlt, Vector.getElem?_setIfInBounds_self_of_lt hlt,
      BitVec.toNat_add s.pc 2, fun k hk => Vector.getElem?_setIfInBounds_ne hk.symm,
      ⟨toNat_zextAddr nnn, rfl⟩, effect_keeps hf⟩
  case full =>
    rw [ofNat_eq_encNNN (f := 0x2) (fixed := 0x2000) rfl]
    exact exec_of_cause (if_pos hfull) nofun

/-- Settles O35: the entry that the return pops is the one that the call pushed. -/
theorem callThenReturn : Obligations.CallThenReturn := by
  intro nnn s t u hne hcall hstack hSP
  obtain ⟨-, hpush, -⟩ := callResult nnn s
  obtain ⟨t', ret, hcall', hdepth, hret, hval, -⟩ := hpush hne
  obtain rfl : t' = t := next_inj (hcall'.symm.trans hcall)
  have hdepth : u.SP.val = s.SP.val + 1 := hSP ▸ hdepth
  obtain ⟨-, hpop, -⟩ := returnResult u
  obtain ⟨v, target, hexec, htop, ⟨hpc, -⟩, hSPv, -⟩ := hpop (by omega)
  rw [hdepth, Nat.add_sub_cancel] at htop hSPv
  rw [hstack, hret] at htop
  obtain rfl : ret = target := Option.some.inj htop
  exact ⟨v, hexec, hpc.trans hval, Fin.ext hSPv⟩

end Sys2Proof.Machine
end

