-- ==== Sys2Proof/Proofs/EncodedSelectors.lean ====
section
/-! The words of the format XS (R63), whose low byte is the sub-selector, as the numbers the obligations write. -/

namespace Sys2Proof

open Sys2Proof.Machine

variable {i : Instr} {f : Nibble} {x : RegIdx} {nn : Byte} {fixed : Nat}

/-- `fixed` is the number of the bits of the family and the sub-selector. -/
theorem ofNat_eq_encXNN (hfixed : f.toNat * 4096 + nn.toNat = fixed) :
    BitVec.ofNat 16 (fixed + 256 * x.val) = encXNN f x nn := by
  have hnum : fixed + 256 * x.val = (encXNN f x nn).toNat := by
    rw [toNat_encXNN]
    omega
  rw [hnum, BitVec.ofNat_toNat, BitVec.setWidth_eq]

theorem encodes_of_encXNN_selector (hwf : WellFormed i = true) (hword : encode i = encXNN f x nn)
    (hfixed : f.toNat * 4096 + nn.toNat = fixed) : Encodes (fixed + 256 * x.val) i := by
  rw [Encodes, ofNat_eq_encXNN hfixed, ← hword]
  exact decodeOfEncode i hwf

end Sys2Proof
end

