-- ==== Sys2Proof/Proofs/MemoryAccess.lean ====
section
/-! The index register and the memory accesses (R98 to R104): three writes of `I`, and three accesses at `I` behind the
bounds check of R45, which either fault or have the effect that `exec_of_no_fault` names. -/

namespace Sys2Proof.Machine

open Sys2Proof

variable {i : Instr} {s : State} {k : Nat}

/-! ### The index register -/

/-- `I` written, and nothing else. -/
theorem answer_of_setI {v : Word} {n : Nat} (hexec : exec i s = .next (s.advance.setI v)) (hv : v.toNat = n) :
    ∃ t, exec i s = .next t ∧ t.I.toNat = n ∧ MovesOn 2 s t ∧ Keeps { index := true } s t :=
  ⟨_, hexec, hv, s.movesOn_advance, (Keeps.advance _ s).setI rfl v⟩

/-- Settles O36: the value written is the address widened with zeros. -/
theorem loadIndexResult : Obligations.LoadIndexResult :=
  fun nnn _ => ⟨encodes_of_encNNN rfl rfl rfl, answer_of_setI rfl (toNat_zextAddr nnn)⟩

/-- Settles O38: the glyph's address does not wrap, wherever the font stands. -/
theorem glyphAddressResult : Obligations.GlyphAddressResult :=
  fun x s => ⟨encodes_of_encXNN_selector rfl rfl rfl, answer_of_setI rfl (toNat_glyphAddr s.cfg (s.getV x))⟩

/-- The sum wraps at 16 bits (R100, decision D12). -/
theorem toNat_indexSum (a : Word) (v : Byte) : (a + zextByte v).toNat = (a.toNat + v.toNat) % 65536 := by
  rw [BitVec.toNat_add, toNat_zextByte]

/-- Settles O37: with the quirk or without, `I` is the sum; the quirk adds the write of VF. -/
theorem addToIndexResult : Obligations.AddToIndexResult := by
  intro x s
  have hI : (effect (.addI x) s).I.toNat = (s.I.toNat + (s.getV x).toNat) % 65536 :=
    ((map_effect_addI (·.I.toNat) x s).trans (ite_self _)).trans (toNat_indexSum _ _)
  have hVF (hquirk : s.cfg.quirkFx1eVf = true) :
      (effect (.addI x) s).getV VF = indexOverflowFlag s.I (s.getV x) :=
    ((map_effect_addI (·.getV VF) x s).trans (if_pos hquirk)).trans (State.getV_setV_same _ _ _)
  refine ⟨encodes_of_encXNN_selector rfl rfl rfl, _, exec_of_no_fault rfl, hI, fun hquirk => ?_,
    ⟨effect_pc rfl, effect_awaitingKey_of_ne_ldVK nofun⟩, effect_keeps (i := .addI x) rfl⟩
  rw [hVF hquirk, toNat_indexOverflowFlag]

/-! ### The bounds check -/

/-- An access of `k + 1` bytes that fits raises no fault. -/
theorem no_fault_of_access_fits
    (hcause : faultOf i s = if s.I.toNat + k > 0xFFF then .memoryOutOfBounds else .none)
    (hfit : s.I.toNat + k ≤ 0xFFF) : faultOf i s = .none :=
  hcause.trans (if_neg (Nat.not_lt.2 hfit))

/-- An access of `k + 1` bytes that passes 0xFFF is the precise fault; the word is the instruction's number. -/
theorem exec_of_access_past {f : Nibble} {x : RegIdx} {nn : Byte} {fixed : Nat}
    (hcause : faultOf i s = if s.I.toNat + k > 0xFFF then .memoryOutOfBounds else .none)
    (hword : encode i = encXNN f x nn) (hfixed : f.toNat * 4096 + nn.toNat = fixed) (hpast : s.I.toNat + k > 0xFFF) :
    exec i s = .next (faulted s .memoryOutOfBounds (BitVec.ofNat 16 (fixed + 256 * x.val))) := by
  rw [ofNat_eq_encXNN hfixed, ← hword]
  exact exec_of_cause (hcause.trans (if_pos hpast)) nofun

/-! ### The decimal digits -/

/-- Byte `k` of a list written inside the space. -/
theorem State.readByte_writeBytes_offset (s : State) (a : Nat) (vs : List Byte) (hk : k < vs.length)
    (h : a + vs.length ≤ Config.memSize) : (s.writeBytes a vs).readByte (a + k) = vs[k] := by
  rw [State.readByte_writeBytes s a _ vs h, if_pos ⟨Nat.le_add_right a k, Nat.add_lt_add_left hk a⟩,
    Nat.add_sub_cancel_left, List.getD_eq_getElem _ _ hk]

/-- Settles O39: the three bytes written are the digits, each at its own offset, and a digit fits a byte. -/
theorem bcdResult : Obligations.BcdResult := by
  intro x s
  refine ⟨encodes_of_encXNN_selector rfl rfl rfl, fun hfit => ?stored,
    exec_of_access_past (k := 2) (nn := 0x33) rfl rfl rfl⟩
  case stored =>
    have hf : faultOf (.ldB x) s = .none := no_fault_of_access_fits (k := 2) rfl hfit
    have hbyte (k : Nat) (hk : k < 3) : (effect (.ldB x) s).readByte (s.I.toNat + k) = (bcdDigits (s.getV x))[k] :=
      State.readByte_writeBytes_offset s.advance _ _ hk (access_in_space hf)
    have hlt : (s.getV x).toNat < 256 := (s.getV x).isLt
    refine ⟨_, exec_of_no_fault hf, (congrArg _ (hbyte 0 (by decide))).trans ?hundreds,
      (congrArg _ (hbyte 1 (by decide))).trans ?tens, (congrArg _ (hbyte 2 (by decide))).trans ?ones,
      s.movesOn_advance, effect_keeps hf⟩
    case hundreds | tens | ones => exact Nat.mod_eq_of_lt (by omega)

/-! ### The register dump and the register load -/

/-- Settles O40: the byte at `I + r` is the one `readByte_of_exec_stRegs` names. -/
theorem registerDumpResult : Obligations.RegisterDumpResult := by
  intro x s
  refine ⟨encodes_of_encXNN_selector rfl rfl rfl, fun hfit => ?stored,
    exec_of_access_past (k := x.val) (nn := 0x55) rfl rfl rfl⟩
  case stored =>
    have hf : faultOf (.stRegs x) s = .none := no_fault_of_access_fits rfl hfit
    have hexec : exec (.stRegs x) s = .next (effect (.stRegs x) s) := exec_of_no_fault hf
    exact ⟨_, hexec, fun r hr => readByte_of_exec_stRegs hfit hexec hr, s.movesOn_advance, effect_keeps hf⟩

/-- Settles O41: a register up to `x` holds the byte at its own offset, and the frame names no other. -/
theorem registerLoadResult : Obligations.RegisterLoadResult := by
  intro x s
  refine ⟨encodes_of_encXNN_selector rfl rfl rfl, fun hfit => ?loaded,
    exec_of_access_past (k := x.val) (nn := 0x65) rfl rfl rfl⟩
  case loaded =>
    have hf : faultOf (.ldRegs x) s = .none := no_fault_of_access_fits rfl hfit
    have hloaded (r : RegIdx) (hr : r ≤ x) : (effect (.ldRegs x) s).getV r = s.readByte (s.I.toNat + r.val) :=
      (State.getV_loadV s.advance _ x r).trans (if_pos hr)
    exact ⟨_, exec_of_no_fault hf, hloaded, s.movesOn_advance, effect_keeps hf⟩

/-- Settles O42: the dump keeps `I`, so the load reads each register back from the offset it was stored at. -/
theorem dumpThenLoadRestores : Obligations.DumpThenLoadRestores := by
  intro x s t u hfit hdump hI hmem
  obtain ⟨-, -, hkeptI, -⟩ := exec_keeps hdump (no_fault_of_access_fits rfl hfit)
  have hsameI : u.I = s.I := hI.trans (hkeptI rfl)
  obtain ⟨-, hload, -⟩ := registerLoadResult x u
  obtain ⟨v, hexec, hloaded, -⟩ := hload (hsameI ▸ hfit)
  refine ⟨v, hexec, fun r hr => ?_⟩
  calc v.getV r = u.readByte (u.I.toNat + r.val) := hloaded r hr
    _ = t.readByte (s.I.toNat + r.val) := by rw [hmem, hsameI]
    _ = s.getV r := readByte_of_exec_stRegs hfit hdump hr

end Sys2Proof.Machine
end

