-- ==== Sys2Proof/Proofs/Display.lean ====
section
/-! The display instructions (R105 to R110). The law of the blitter is read pixel by pixel: each pixel of the screen is XORed
with the sprite bit that lands on it, and VF tells whether one of these bits met a pixel that was on. -/

namespace Sys2Proof.Machine

open Sys2Proof

variable {s t : State} {x y : RegIdx} {n : Nibble} {col row : Nat}

/-- Settles O44: the screen written is the cleared one, and the frame names nothing else. -/
theorem clearScreenResult : Obligations.ClearScreenResult :=
  fun _ => ⟨rfl, _, rfl, FrameBuffer.pixel_clear, effect_keeps (i := .cls) rfl⟩

/-! ### The blitter, pixel by pixel -/

/-- On the screen, the pixels that the blitter's law names are those of `spriteBit`. -/
theorem spriteSets_iff (s : State) (x0 y0 k : Nat) :
    SpriteSets s.readByte s.base x0 y0 k col row ↔ col < 64 ∧ row < 32 ∧ spriteBit s x0 y0 k col row = true := by
  unfold SpriteSets spriteBit
  rw [Bool.and_eq_true, decide_eq_true_iff]
  exact ⟨fun ⟨hy, hyn, hrow, hx, hx8, hcol, hbit⟩ => ⟨hcol, hrow, ⟨hx, hx8, hy, hyn⟩, hbit⟩,
    fun ⟨hcol, hrow, ⟨hx, hx8, hy, hyn⟩, hbit⟩ => ⟨hy, hyn, hrow, hx, hx8, hcol, hbit⟩⟩

theorem State.pixel_blit (s : State) (x0 y0 k : Nat) (hcol : col < 64) (hrow : row < 32) :
    (s.blit s.base x0 y0 k).1.pixel col row = (s.FB.pixel col row ^^ spriteBit s x0 y0 k col row) := by
  obtain ⟨hpixel, -⟩ := s.blit_drawnOver s.base x0 y0 k
  have hsets : SpriteSets s.readByte s.base x0 y0 k col row ↔ spriteBit s x0 y0 k col row = true := by
    simp only [spriteSets_iff, hcol, hrow, true_and]
  rw [Bool.eq_iff_iff, hpixel, hsets, ← Bool.eq_iff_iff, Bool.xor_iff_ne]

theorem State.hit_blit_iff (s : State) (x0 y0 k : Nat) :
    (s.blit s.base x0 y0 k).2 = true ↔
      ∃ col row, col < 64 ∧ row < 32 ∧ spriteBit s x0 y0 k col row = true ∧ s.FB.pixel col row = true := by
  obtain ⟨-, hhit⟩ := s.blit_drawnOver s.base x0 y0 k
  simp only [hhit, spriteSets_iff, and_assoc]

/-! ### DXYN -/

/-- The bit of DXYN's sprite on a pixel: drawn from the coordinates that the registers hold at the start (R106, R110). -/
def State.drawnBit (s : State) (x y : RegIdx) (n : Nibble) (col row : Nat) : Bool :=
  spriteBit s (s.spriteCol x) (s.spriteRow y) n.toNat col row

/-- The bit is read from memory, `I` and the two coordinates alone. -/
theorem State.drawnBit_congr (hmem : ∀ a, t.readByte a = s.readByte a) (hI : t.I = s.I) (hx : t.getV x = s.getV x)
    (hy : t.getV y = s.getV y) : t.drawnBit x y n col row = s.drawnBit x y n col row := by
  unfold State.drawnBit State.spriteCol State.spriteRow spriteBit
  rw [hmem, hI, hx, hy]

theorem pixel_effect_drw (hcol : col < 64) (hrow : row < 32) :
    (effect (.drw x y n) s).FB.pixel col row = (s.FB.pixel col row ^^ s.drawnBit x y n col row) :=
  s.pixel_blit _ _ _ hcol hrow

theorem toNat_VF_effect_drw (x y : RegIdx) (n : Nibble) (s : State) :
    ((effect (.drw x y n) s).getV VF).toNat =
      if (s.blit s.base (s.spriteCol x) (s.spriteRow y) n.toNat).2 then 1 else 0 :=
  (congrArg BitVec.toNat (State.getV_setV_same _ _ _)).trans (toNat_flagByte _)

/-- A bit of the sprite on a pixel of the screen that was on. -/
theorem VF_effect_drw_of_collision (hcol : col < 64) (hrow : row < 32) (hbit : s.drawnBit x y n col row = true)
    (hon : s.FB.pixel col row = true) : ((effect (.drw x y n) s).getV VF).toNat = 1 := by
  rw [toNat_VF_effect_drw, if_pos ((s.hit_blit_iff _ _ _).2 ⟨col, row, hcol, hrow, hbit, hon⟩)]

theorem VF_effect_drw_of_no_collision
    (hnone : ∀ col row, col < 64 → row < 32 → s.FB.pixel col row = true → s.drawnBit x y n col row = false) :
    ((effect (.drw x y n) s).getV VF).toNat = 0 := by
  rw [toNat_VF_effect_drw, if_neg]
  intro hhit
  obtain ⟨col, row, hcol, hrow, hbit, hon⟩ := (s.hit_blit_iff _ _ _).1 hhit
  exact absurd ((hnone col row hcol hrow hon).symm.trans hbit) (by decide)

/-- Settles O45: a pixel that was on goes off exactly where a bit of the sprite lands on it, which is the collision. -/
theorem drawSpriteResult : Obligations.DrawSpriteResult := by
  intro x y n s
  have hword : Encodes (0xD000 + 256 * x.val + 16 * y.val + n.toNat) (.drw x y n) :=
    encodes_of_encXYN_operand rfl rfl rfl
  refine ⟨hword, fun hfits => ?drawn, fun hpast => ?past⟩
  case drawn =>
    have hf : faultOf (.drw x y n) s = .none := if_neg hfits
    refine ⟨_, exec_of_no_fault hf, fun col row => pixel_effect_drw, ?collision, ?noCollision, s.movesOn_advance,
      effect_keeps hf⟩
    case collision =>
      rintro ⟨col, row, hcol, hrow, hon, hoff⟩
      have hbit : s.drawnBit x y n col row = true := by simpa [pixel_effect_drw hcol hrow, hon] using hoff
      exact VF_effect_drw_of_collision hcol hrow hbit hon
    case noCollision =>
      intro hstays
      refine VF_effect_drw_of_no_collision fun col row hcol hrow hon => ?_
      simpa [pixel_effect_drw hcol hrow, hon] using hstays col row hcol hrow hon
  case past =>
    rw [← encode_of_decode hword]
    exact exec_of_cause (if_pos hpast) nofun

/-- Settles O46: the first draw keeps what the sprite is read from, so the second XORs each pixel with the same bit. -/
theorem drawTwiceRestores : Obligations.DrawTwiceRestores := by
  intro x y n s t hx hy hf hexec
  obtain rfl := effect_of_no_fault hexec hf
  obtain ⟨hregs, hmem, hI, -⟩ := effect_keeps hf
  have hsame (col row : Nat) : (effect (.drw x y n) s).drawnBit x y n col row = s.drawnBit x y n col row :=
    State.drawnBit_congr (fun a => hmem a (by simp [writesOf])) (hI rfl) (hregs x (by simpa [writesOf] using hx))
      (hregs y (by simpa [writesOf] using hy))
  have hf' : faultOf (.drw x y n) (effect (.drw x y n) s) = .none := hf
  refine ⟨_, exec_of_no_fault hf', FrameBuffer.ext_pixel fun col row hcol hrow => ?restored,
    fun col row hcol hrow hoff hbit => ?collision⟩
  case restored =>
    rw [pixel_effect_drw hcol hrow, hsame, pixel_effect_drw hcol hrow, Bool.xor_assoc, Bool.xor_self, Bool.xor_false]
  case collision =>
    have hbit : s.drawnBit x y n col row = true := hbit
    refine VF_effect_drw_of_collision hcol hrow ((hsame col row).trans hbit) ?_
    rw [pixel_effect_drw hcol hrow, hoff, hbit]
    rfl

end Sys2Proof.Machine
end

