-- ==== Sys2Proof/Proofs/KeyTimer.lean ====
section
/-! The key and timer instructions (R111 to R116): the moves between a register and a timer, the two skips behind the check of
the key's range, and the key wait. -/

namespace Sys2Proof.Machine

open Sys2Proof

variable {i : Instr} {s : State} {x : RegIdx}

/-! ### The timers -/

/-- The delay timer written, and nothing else. -/
theorem answer_of_setDT {v : Byte} (hexec : exec i s = .next (s.advance.setDT v)) :
    ∃ t, exec i s = .next t ∧ t.DT = v ∧ MovesOn 2 s t ∧ Keeps { delay := true } s t :=
  ⟨_, hexec, rfl, s.movesOn_advance, (Keeps.advance _ s).setDT rfl v⟩

/-- The sound timer written, and nothing else. -/
theorem answer_of_setST {v : Byte} (hexec : exec i s = .next (s.advance.setST v)) :
    ∃ t, exec i s = .next t ∧ t.ST = v ∧ MovesOn 2 s t ∧ Keeps { sound := true } s t :=
  ⟨_, hexec, rfl, s.movesOn_advance, (Keeps.advance _ s).setST rfl v⟩

/-- Settles O48: each move writes one register or one timer. -/
theorem timerMoveResults : Obligations.TimerMoveResults :=
  fun _ _ => ⟨⟨encodes_of_encXNN_selector rfl rfl rfl, answer_of_setV rfl⟩,
    ⟨encodes_of_encXNN_selector rfl rfl rfl, answer_of_setDT rfl⟩,
    ⟨encodes_of_encXNN_selector rfl rfl rfl, answer_of_setST rfl⟩⟩

/-! ### The skips on a key -/

/-- A key number above 0xF is the precise fault; the word is the instruction's number. -/
theorem exec_of_key_past {f : Nibble} {nn : Byte} {fixed : Nat}
    (hcause : faultOf i s = if (s.getV x).toNat > 0xF then .keyOutOfRange else .none)
    (hword : encode i = encXNN f x nn) (hfixed : f.toNat * 4096 + nn.toNat = fixed) (hpast : (s.getV x).toNat > 0xF) :
    exec i s = .next (faulted s .keyOutOfRange (BitVec.ofNat 16 (fixed + 256 * x.val))) := by
  rw [ofNat_eq_encXNN hfixed, ← hword]
  exact exec_of_cause (hcause.trans (if_pos hpast)) nofun

/-- Settles O47: in range each effect is a skip on the sampled key or on its negation, above it each raises the fault. -/
theorem keySkipResults : Obligations.KeySkipResults := by
  intro x s
  refine ⟨encodes_of_encXNN_selector rfl rfl rfl, encodes_of_encXNN_selector rfl rfl rfl, fun hkey => ⟨?down, ?up⟩,
    fun hpast => ⟨exec_of_key_past (nn := 0x9E) rfl rfl rfl hpast, exec_of_key_past (nn := 0xA1) rfl rfl rfl hpast⟩⟩
  case down =>
    have hf : faultOf (.skp x) s = .none := if_neg (Nat.not_lt.2 hkey)
    exact answer_of_skipIf (exec_of_no_fault hf) Iff.rfl
  case up =>
    have hf : faultOf (.sknp x) s = .none := if_neg (Nat.not_lt.2 hkey)
    exact answer_of_skipUnless (exec_of_no_fault hf) (by simp [State.keyPressed])

/-! ### The key wait -/

/-- Settles O49: with an event the effect writes its value, which a byte holds whole; with none it waits. -/
theorem keyWaitResult : Obligations.KeyWaitResult := by
  intro x s
  have hexec : exec (.ldVK x) s = .next (effect (.ldVK x) s) := exec_of_no_fault rfl
  refine ⟨encodes_of_encXNN_selector rfl rfl rfl, fun k hk => ?event, fun hk => ?noEvent⟩
  case event =>
    rw [effect_ldVK_some x hk] at hexec
    obtain ⟨t, hexec, hx, hrest⟩ := answer_of_setV hexec
    exact ⟨t, hexec, (congrArg _ hx).trans (toNat_zextKey k), hrest⟩
  case noEvent =>
    rw [effect_ldVK_none x hk] at hexec
    exact hexec

end Sys2Proof.Machine
end

