-- ==== Sys2Proof/Proofs/Exceptions.lean ====
section
/-! Faults, the halted state and the tick (R117 to R121, R127, R134, R135): the fault of an instruction is precise; of the
host's operations only a refused `Load` answers no next state, and only `Reset` leaves the halted state. -/

namespace Sys2Proof.Machine

open Sys2Proof

variable {op : HostOp} {s t : State}

/-- Settles O50: `faulted` is the state that the fault of `exec_cases` raises, and the frame of an effect holds the fault
registers. -/
theorem faultsArePreciseAndTabled : Obligations.FaultsArePreciseAndTabled := by
  intro i s t h
  constructor
  · intro hf
    exact next_inj (h.symm.trans (exec_of_fault hf))
  · intro hf
    obtain ⟨-, -, -, -, -, -, -, hfaultRegs, -⟩ := exec_keeps h hf
    exact hfaultRegs

/-! ### The host's operations -/

/-- A step performs the head of the host's list, taken off it. -/
theorem step_of_host_cons {rest : List HostOp} (h : s.host = op :: rest) : step s = perform op (s.withHost rest) := by
  rw [step, performNext, h]

/-- A counter that stays at 0 counts down as the truncated subtraction does (R127). -/
theorem toNat_tickTimer (v : Byte) : (tickTimer v).toNat = v.toNat - 1 := by
  unfold tickTimer
  split
  · next h => rw [h]; rfl
  · next h =>
    have hpos : 0 < v.toNat := Nat.pos_of_ne_zero fun hzero => h (BitVec.eq_of_toNat_eq hzero)
    exact BitVec.toNat_sub_of_le (x := v) hpos

/-- Settles O12: the fields that `State.tick` writes are the two timers. -/
theorem tickCountsDown : Obligations.TickCountsDown := by
  intro s rest h
  exact ⟨(s.withHost rest).tick, step_of_host_cons h, toNat_tickTimer s.DT, toNat_tickTimer s.ST, rfl⟩

/-- Everything a `Load` can answer (R135): its two refusals, or the bytes in memory. -/
theorem hostLoad_cases (bytes : List Byte) (s : State) :
    (s.loadOpen = false ∧ hostLoad bytes s = .refused .loadNotAdmitted) ∨
    (bytes.length > Config.maxProgram ∧ s.loadOpen = true ∧ hostLoad bytes s = .refused .programTooLarge) ∨
    (bytes.length ≤ Config.maxProgram ∧ s.loadOpen = true ∧
      hostLoad bytes s = .next (s.writeBytes Config.programBase bytes)) := by
  cases hopen : s.loadOpen with
  | false => exact .inl ⟨rfl, if_pos (by rw [hopen]; rfl)⟩
  | true =>
    have hadmitted : ¬ (!s.loadOpen) = true := by simp [hopen]
    by_cases hlong : bytes.length > Config.maxProgram
    · exact .inr (.inl ⟨hlong, rfl, (if_neg hadmitted).trans (if_pos hlong)⟩)
    · exact .inr (.inr ⟨Nat.le_of_not_lt hlong, rfl, (if_neg hadmitted).trans (if_neg hlong)⟩)

/-! ### Every operation answers, but a refused `Load` -/

theorem fetchAndRun_answers (s : State) : ∃ t, fetchAndRun s = .next t := by
  cases hfetch : s.fetch with
  | none => exact ⟨_, fetchAndRun_of_no_fetch hfetch⟩
  | some word =>
    cases hdecode : decode word with
    | none => exact ⟨_, fetchAndRun_of_decode_none hfetch hdecode⟩
    | some i =>
      rw [fetchAndRun_of_decode hfetch hdecode]
      exact exec_answers i s

theorem runStep_of_halted (inp : Inputs) (h : s.faultCause ≠ .none) : runStep inp s = .next s :=
  if_pos (s.halted_iff.2 h)

theorem runFreeStep_of_halted (h : s.faultCause ≠ .none) : runFreeStep s = .next s :=
  if_pos (s.halted_iff.2 h)

theorem runStep_answers (inp : Inputs) (s : State) : ∃ t, runStep inp s = .next t := by
  by_cases hrun : s.faultCause = .none
  · rw [runStep_of_running s inp hrun]
    exact fetchAndRun_answers _
  · exact ⟨s, runStep_of_halted inp hrun⟩

theorem runFreeStep_answers (s : State) : ∃ t, runFreeStep s = .next t := by
  by_cases hrun : s.faultCause = .none
  · rw [runFreeStep_of_running s hrun]
    exact fetchAndRun_answers _
  · exact ⟨s, runFreeStep_of_halted hrun⟩

theorem perform_answers (op : HostOp) (s : State) :
    (∃ t, perform op s = .next t) ∨
      ∃ bytes, op = .load bytes ∧ (s.loadOpen = false ∨ bytes.length > Config.maxProgram) := by
  cases op with
  | reset | tick | read => exact .inl ⟨_, rfl⟩
  | step inp => exact .inl (runStep_answers inp s)
  | load bytes =>
    obtain ⟨hclosed, -⟩ | ⟨hlong, -⟩ | ⟨-, -, hload⟩ := hostLoad_cases bytes s
    · exact .inr ⟨bytes, rfl, .inl hclosed⟩
    · exact .inr ⟨bytes, rfl, .inr hlong⟩
    · exact .inl ⟨_, hload⟩

/-- Settles O18: a free `Step` answers, and so does every listed operation but the refused `Load`. -/
theorem stepAnswersNextState : Obligations.StepAnswersNextState := by
  intro s
  cases hhost : s.host with
  | nil =>
    rw [step_of_host_nil hhost]
    exact .inl (runFreeStep_answers s)
  | cons op rest =>
    rw [step_of_host_cons hhost]
    obtain hnext | ⟨bytes, rfl, hrefused⟩ := perform_answers op (s.withHost rest)
    · exact .inl hnext
    · exact .inr ⟨bytes, rest, rfl, hrefused⟩

/-! ### The halted state -/

/-- In a halted block every operation but `Reset` writes at most memory (`Load`) and the timers (`Tick`). -/
theorem perform_of_halted (hhalt : s.faultCause ≠ .none) (hop : op ≠ .reset) (h : perform op s = .next t) :
    ∃ m dt st, t = { s with mem := m, DT := dt, ST := st } := by
  cases op with
  | reset => exact absurd rfl hop
  | step inp =>
    obtain rfl := next_inj ((runStep_of_halted inp hhalt).symm.trans h)
    exact ⟨_, _, _, rfl⟩
  | tick | read =>
    obtain rfl := next_inj h
    exact ⟨_, _, _, rfl⟩
  | load bytes =>
    obtain ⟨-, hload⟩ | ⟨-, -, hload⟩ | ⟨-, -, hload⟩ := hostLoad_cases bytes s
    · cases hload.symm.trans h
    · cases hload.symm.trans h
    · obtain rfl := next_inj (hload.symm.trans h)
      exact ⟨_, _, _, rfl⟩

theorem step_of_halted (hhalt : s.faultCause ≠ .none) (hop : ∀ rest, s.host ≠ .reset :: rest) (h : step s = .next t) :
    ∃ m dt st ops, t = { s with mem := m, DT := dt, ST := st, host := ops } := by
  cases hhost : s.host with
  | nil =>
    obtain rfl := next_inj (((step_of_host_nil hhost).trans (runFreeStep_of_halted hhalt)).symm.trans h)
    exact ⟨_, _, _, _, rfl⟩
  | cons op rest =>
    have hne : op ≠ .reset := by
      rintro rfl
      exact hop rest hhost
    rw [step_of_host_cons hhost] at h
    obtain ⟨m, dt, st, rfl⟩ := perform_of_halted (s := s.withHost rest) hhalt hne h
    exact ⟨m, dt, st, rest, rfl⟩

/-- Settles O17: memory, the timers and the host's list are no part of what must stay. -/
theorem haltedUntilReset : Obligations.HaltedUntilReset := by
  intro s hhalt
  refine ⟨fun hhost => ?free, fun inp rest hhost => ?listed, fun t h hop => ?kept⟩
  case free => exact (step_of_host_nil hhost).trans (runFreeStep_of_halted hhalt)
  case listed => exact (step_of_host_step hhost).trans (runStep_of_halted inp hhalt)
  case kept =>
    obtain ⟨m, dt, st, ops, rfl⟩ := step_of_halted hhalt hop h
    exact ⟨rfl, rfl, rfl, rfl, rfl, rfl, rfl, rfl, rfl, rfl, rfl⟩

end Sys2Proof.Machine
end

