-- ==== Sys2Proof/Proofs/ResetLoadAndEnd.lean ====
section
/-! The host's `Reset` and `Load` (R133 to R135), the window in which `Load` is admitted, and the end of a run (R143). -/

namespace Sys2Proof.Machine

open Sys2Proof

variable {s : State}

/-! ### `Reset` -/

/-- What `Reset` keeps of the interface is no part of the reset values. -/
theorem holdsResetValues_resetBlock (s : State) : HoldsResetValues s.cfg s.resetBlock :=
  holdsResetValues_resetOf s.cfg

/-- Settles O9: the answer is `State.resetBlock` of the state with `Reset` taken off its list. -/
theorem resetOperationResets : Obligations.ResetOperationResets := by
  intro s rest hhost
  exact ⟨_, step_of_host_cons hhost, holdsResetValues_resetBlock (s.withHost rest), rfl, rfl, rfl⟩

/-! ### `Load` -/

/-- Bytes written inside the space leave every address below and above them as it was. -/
theorem State.readByte_writeBytes_outside (s : State) {a k : Nat} {vs : List Byte}
    (hspace : a + vs.length ≤ Config.memSize) (hk : k < a ∨ a + vs.length ≤ k) :
    (s.writeBytes a vs).readByte k = s.readByte k := by
  rw [State.readByte_writeBytes s a k vs hspace, if_neg (by omega)]

/-- Settles O10: each answer of `hostLoad_cases` is one clause, and excludes the conditions of the other two. -/
theorem loadPlacesOrIsRefused : Obligations.LoadPlacesOrIsRefused := by
  intro s bytes rest hhost
  rw [step_of_host_cons hhost]
  obtain ⟨hclosed, hload⟩ | ⟨hlong, hopen, hload⟩ | ⟨hfits, hopen, hload⟩ := hostLoad_cases bytes (s.withHost rest)
  · have hshut : s.loadOpen ≠ true := ne_true_of_eq_false hclosed
    exact ⟨fun hopen => absurd hopen hshut, fun hopen => absurd hopen hshut, fun _ => hload⟩
  · exact ⟨fun _ hfits => absurd hlong hfits.not_gt, fun _ _ => hload,
      fun hclosed => absurd hopen (ne_true_of_eq_false hclosed)⟩
  · refine ⟨fun _ _ => ?placed, fun _ hlong => absurd hlong hfits.not_gt,
      fun hclosed => absurd hopen (ne_true_of_eq_false hclosed)⟩
    case placed =>
      have hspace : Config.programBase + bytes.length ≤ Config.memSize := Nat.add_le_add_left hfits _
      exact ⟨_, hload, fun _ hk => State.readByte_writeBytes_offset _ _ bytes hk hspace,
        fun _ ha => State.readByte_writeBytes_outside _ hspace ha, rfl⟩

/-- Settles O11: sampling the inputs closes the window, and fetch, decode and execute leave it as it is. -/
theorem stepClosesLoad : Obligations.StepClosesLoad := by
  intro s t hrun hhost h
  obtain ⟨hlisted, hfree⟩ := step_of_running (answer := fetchAndRun) hrun fun _ _ => rfl
  obtain hnil | ⟨inp, rest, hcons⟩ := hhost
  · obtain ⟨inp, hstep⟩ := hfree hnil
    exact (fetchAndRun_keeps_interface (hstep.symm.trans h)).2
  · exact (fetchAndRun_keeps_interface ((hlisted inp rest hcons).symm.trans h)).2

/-! ### The end of a run -/

/-- A jump to the instruction's own address changes nothing of a block that is not waiting. -/
theorem exec_jp_self {nnn : Addr} (hpc : zextAddr nnn = s.pc) (hwait : s.awaitingKey = false) :
    exec (.jp nnn) s = .next s := by
  have hself : s.advance.jump (zextAddr nnn) = s := by
    rw [hpc]
    change { s with awaitingKey := false } = s
    rw [← hwait]
  exact congrArg _ hself

/-- The word at the end of a run, as its encoding: the jump's family above the address of the word itself. -/
theorem Ended.word_eq (h : Ended s) :
    (s.readByte s.pc.toNat).toNat * 256 + (s.readByte (s.pc.toNat + 1)).toNat = 0x1000 + s.pc.toNat := by
  obtain ⟨-, -, hpc, hword⟩ := h
  have hlo : (s.readByte (s.pc.toNat + 1)).toNat < 2 ^ 8 := (s.readByte (s.pc.toNat + 1)).isLt
  have hlt : s.pc.toNat < 2 ^ 12 := Nat.lt_succ_of_le (Nat.le_of_succ_le hpc)
  have htop : 0x1000 + s.pc.toNat = 0x1000 ||| s.pc.toNat := Nat.two_pow_add_eq_or_of_lt hlt 1
  rw [← Nat.shiftLeft_add_eq_or_of_lt hlo, Nat.shiftLeft_eq] at hword
  exact hword.trans htop.symm

/-- An address of the space is its own low 12 bits. -/
theorem zextAddr_setWidth {v : Word} (h : v.toNat < Config.memSize) : zextAddr (v.setWidth 12) = v := by
  refine BitVec.eq_of_toNat_eq ?_
  rw [toNat_zextAddr, BitVec.toNat_setWidth, Nat.mod_eq_of_lt h]

/-- Settles O19: the word at `pc` is that of a jump to `pc`, and `Ended` reads nothing that a `Step` then changes. -/
theorem endedStaysEnded : Obligations.EndedStaysEnded := by
  intro s hended
  obtain ⟨hrun, hwait, hpc, -⟩ := id hended
  have hself : zextAddr (s.pc.setWidth 12) = s.pc := zextAddr_setWidth (Nat.lt_succ_of_le (Nat.le_of_succ_le hpc))
  have hop : (encode (.jp (s.pc.setWidth 12))).toNat =
      (s.readByte s.pc.toNat).toNat * 256 + (s.readByte (s.pc.toNat + 1)).toNat := by
    rw [hended.word_eq, encode, toNat_encNNN, ← toNat_zextAddr, hself]
    rfl
  obtain ⟨hlisted, hfree⟩ := stepRunsDecodedInstruction s _ _ hrun hpc hop (decodeOfEncode _ rfl)
  constructor
  · intro inp rest hhost
    exact ⟨(hlisted inp rest hhost).trans (exec_jp_self hself hwait), hended⟩
  · intro hhost
    obtain ⟨inp, hstep⟩ := hfree hhost
    exact ⟨inp, hstep.trans (exec_jp_self hself hwait), hended⟩

end Sys2Proof.Machine
end
